-- ==== Sys2Proof/Word.lean ====
section
/-! DEFINITION. The word types of SUI-MATH CORE and the 512-bit WideUint value. -/

namespace Sys2Proof

/-- The content of a data register: C = 256 bits, unsigned (R10, R21, R22). -/
abbrev Word := BitVec 256

/-- A command word: 16 bits (R70). -/
abbrev CmdWord := BitVec 16

/-- A register number of the host port: 3 bits (R35, R51). -/
abbrev RegNum := BitVec 3

/-- The STATUS register: 16 bits (R28). -/
abbrev StatusWord := BitVec 16

/-- A WideUint: two 256-bit limbs with `value = hi·2^256 + lo` (R17, R100). -/
structure Wide where
  /-- The high limb. -/
  hi : Word
  /-- The low limb. -/
  lo : Word
  deriving DecidableEq, Repr

/-- `Wide.zero()` of R17. -/
def Wide.zero : Wide := ⟨0, 0⟩

/-- `Wide.from_single(v)` of R17. -/
def Wide.fromSingle (v : Word) : Wide := ⟨0, v⟩

/-- `val(w) = w.hi·2^256 + w.lo`, a natural number below 2^512 (R17). -/
def Wide.val (n : Wide) : Nat := n.hi.toNat * 2 ^ 256 + n.lo.toNat

end Sys2Proof
end

