-- ==== Sys2Proof/Syntax.lean ====
section
/-! DEFINITION. The twelve commands, the fields of a command word, and the host's transactions. -/

namespace Sys2Proof

/-- The width family W ∈ {8, 16, 32, 64, 128, 256} in the order of WSEL (R11, R74). -/
inductive Width where
  | w8
  | w16
  | w32
  | w64
  | w128
  | w256
  deriving DecidableEq, Repr

/-- The rounding modes in the order of RM (R13, R75). -/
inductive RoundingMode where
  | down
  | up
  | nearest
  deriving DecidableEq, Repr

/-- The commands, one constructor per row of the opcode map (R77). An operand is there only where R76 leaves the field
free, so every term is one of the 119 legal commands (R87). -/
inductive Instr where
  /-- WMUL, wide multiply (R102). -/
  | wmul
  /-- WDIVREM, wide divide with remainder (R107). -/
  | wdivrem
  /-- RND, apply the rounding policy (R122). -/
  | rnd (m : RoundingMode)
  /-- CVT, convert a canonical value to width W (R130). -/
  | cvt (w : Width)
  /-- MULDIV, fused multiply then divide (R141). -/
  | muldiv (w : Width) (m : RoundingMode)
  /-- MULSHR, fused multiply then shift right (R151). -/
  | mulshr (w : Width) (m : RoundingMode)
  /-- AVG, overflow-free average (R160). -/
  | avg (w : Width) (m : RoundingMode)
  /-- CSHL, checked shift left (R172). -/
  | cshl (w : Width)
  /-- CSHR, checked shift right (R173). -/
  | cshr (w : Width)
  /-- CLZ, count leading zeros (R176). -/
  | clz (w : Width)
  /-- LOG2, base-2 logarithm (R180). -/
  | log2 (w : Width) (m : RoundingMode)
  /-- LOG256, base-256 logarithm (R186). -/
  | log256 (w : Width) (m : RoundingMode)
  deriving DecidableEq, Repr

/-- The four fields of a command word before any check (R71). -/
structure CmdFields where
  /-- Bits 15:9, which must be 0 (R73). -/
  zero : BitVec 7
  /-- Bits 8:7, the rounding mode (R75). -/
  rm : BitVec 2
  /-- Bits 6:4, the width select (R74). -/
  wsel : BitVec 3
  /-- Bits 3:0, the operation select (R77). -/
  op : BitVec 4
  deriving DecidableEq, Repr

/-- What register number the host port knows (R35); number 7 is reserved and names none of them. -/
inductive PortReg where
  | a
  | b
  | d
  | cmd
  | r0
  | r1
  | status
  deriving DecidableEq, Repr

/-- One host transaction (R55, R56, R57, R65). Register numbers are the raw 3-bit numbers of R35, so a transaction
that the table does not allow can be written down; the machine refuses it (U6). -/
inductive Transaction where
  /-- RESET (R65). -/
  | reset
  /-- WR n, v (R55); WR 3, c is ISSUE c (R57). -/
  | wr (n : RegNum) (v : Word)
  /-- RD n (R56). -/
  | rd (n : RegNum)
  /-- ISSUE c (R57). -/
  | issue (c : CmdWord)
  deriving DecidableEq, Repr

end Sys2Proof
end

