-- ==== Sys2Proof/WellFormed.lean ====
section
/-! DEFINITION. Which field values make a legal command (R73 to R77, R81) and which transactions the register table
allows (R35). Decode.lean decodes by the chain of checks of R78, written apart from the table here. -/

namespace Sys2Proof

/-- What R76 lets a command use: a free WSEL or the fixed value 5, a free RM or the fixed value 0. -/
structure FieldUse where
  /-- WSEL takes 0 to 5 (true) or must be 5 (false). -/
  freeWsel : Bool
  /-- RM takes 0 to 2 (true) or must be 0 (false). -/
  freeRm : Bool
  deriving DecidableEq, Repr

/-- The table of R76 by OP value; none for the reserved values 0x0, 0xD, 0xE, 0xF (R77, R81). -/
def fieldUse (op : BitVec 4) : Option FieldUse :=
  match op.toNat with
  | 1 | 2 => some ⟨false, false⟩
  | 3 => some ⟨false, true⟩
  | 4 | 8 | 9 | 10 => some ⟨true, false⟩
  | 5 | 6 | 7 | 11 | 12 => some ⟨true, true⟩
  | _ => none

/-- ZERO must be 0 (R73). -/
def CmdFields.zeroClear (f : CmdFields) : Bool := f.zero == 0

/-- OP is not one of the reserved values (R81). -/
def CmdFields.opDefined (f : CmdFields) : Bool := (fieldUse f.op).isSome

/-- WSEL is not one of the reserved values 6 and 7 (R74, R81). -/
def CmdFields.widthDefined (f : CmdFields) : Bool := decide (f.wsel.toNat ≤ 5)

/-- RM is not the reserved value 3 (R75, R81). -/
def CmdFields.modeDefined (f : CmdFields) : Bool := f.rm != 3

/-- A command whose WSEL is fixed has WSEL = 5 (R76). -/
def CmdFields.widthAllowed (f : CmdFields) : Bool :=
  match fieldUse f.op with
  | some u => u.freeWsel || f.wsel == 5
  | none => true

/-- A command whose RM is fixed has RM = 0 (R76). -/
def CmdFields.modeAllowed (f : CmdFields) : Bool :=
  match fieldUse f.op with
  | some u => u.freeRm || f.rm == 0
  | none => true

/-- The fields of a legal command word (R76, R81). -/
def CmdFields.wellFormed (f : CmdFields) : Bool :=
  f.zeroClear && f.opDefined && f.widthDefined && f.modeDefined && f.widthAllowed && f.modeAllowed

/-- The transactions the table of R35 allows. A WR to CMD carries a 16-bit word (R34, R57). -/
def Transaction.allowed : Transaction → Bool
  | .reset => true
  | .wr n v => decide (n.toNat ≤ 2) || (n == 3 && decide (v.toNat < 2 ^ 16))
  | .rd n => decide (n.toNat ≤ 2) || (decide (4 ≤ n.toNat) && decide (n.toNat ≤ 6))
  | .issue _ => true

end Sys2Proof
end

