-- ==== Sys2Proof/Decode.lean ====
section
/-! DEFINITION. The decoder of command words (R78), the encoder (R71, R77), and the decoder of register numbers (R35). -/

namespace Sys2Proof

/-- Why a word selects no command: the checks of R78, each by name. The machine raises IllegalCommand for each (R82). -/
inductive DecodeError where
  /-- ZERO is not 0 (R73). -/
  | zeroBitsSet
  /-- OP is 0x0, 0xD, 0xE or 0xF (R81). -/
  | reservedOp
  /-- WSEL is 6 or 7 (R74). -/
  | reservedWidth
  /-- RM is 3 (R75). -/
  | reservedMode
  /-- The command needs WSEL = 5 (R76). -/
  | widthMustBe256
  /-- The command needs RM = 0 (R76). -/
  | modeMustBeZero
  deriving DecidableEq, Repr

/-- The fields of a word (R71). -/
def fieldsOf (c : CmdWord) : CmdFields :=
  { zero := c.extractLsb' 9 7, rm := c.extractLsb' 7 2, wsel := c.extractLsb' 4 3, op := c.extractLsb' 0 4 }

/-- The word made of four fields (R71). -/
def packFields (f : CmdFields) : CmdWord := f.zero ++ f.rm ++ f.wsel ++ f.op

/-- WSEL to W (R74). -/
def widthOf (wsel : BitVec 3) : Option Width :=
  match wsel.toNat with
  | 0 => some .w8
  | 1 => some .w16
  | 2 => some .w32
  | 3 => some .w64
  | 4 => some .w128
  | 5 => some .w256
  | _ => none

/-- RM to the rounding mode (R75). -/
def modeOf (rm : BitVec 2) : Option RoundingMode :=
  match rm.toNat with
  | 0 => some .down
  | 1 => some .up
  | 2 => some .nearest
  | _ => none

/-- The commands that require WSEL = 5 (R78). -/
def needsWidth256 (op : BitVec 4) : Bool := op == 1 || op == 2 || op == 3

/-- The commands that require RM = 0 (R78). -/
def needsModeZero (op : BitVec 4) : Bool := op == 1 || op == 2 || op == 4 || op == 8 || op == 9 || op == 10

/-- The row of OP in the opcode map (R77), once the fields are known to be legal for it. -/
def selectRow (op : BitVec 4) (w : Width) (m : RoundingMode) : Except DecodeError Instr :=
  match op.toNat with
  | 1 => .ok .wmul
  | 2 => .ok .wdivrem
  | 3 => .ok (.rnd m)
  | 4 => .ok (.cvt w)
  | 5 => .ok (.muldiv w m)
  | 6 => .ok (.mulshr w m)
  | 7 => .ok (.avg w m)
  | 8 => .ok (.cshl w)
  | 9 => .ok (.cshr w)
  | 10 => .ok (.clz w)
  | 11 => .ok (.log2 w m)
  | 12 => .ok (.log256 w m)
  | _ => .error .reservedOp

/-- The checks of R78 on the fields, then the row. Their order does not matter to the machine: each failing check raises
the same fault. -/
def decodeFields (f : CmdFields) : Except DecodeError Instr :=
  if f.zero ≠ 0 then .error .zeroBitsSet
  else match widthOf f.wsel with
    | none => .error .reservedWidth
    | some w => match modeOf f.rm with
      | none => .error .reservedMode
      | some m =>
        if needsWidth256 f.op && w != .w256 then .error .widthMustBe256
        else if needsModeZero f.op && m != .down then .error .modeMustBeZero
        else selectRow f.op w m

/-- Decode of a command word (R78). -/
def decode (c : CmdWord) : Except DecodeError Instr := decodeFields (fieldsOf c)

/-- W to WSEL (R74). -/
def wselOf : Width → BitVec 3
  | .w8 => 0
  | .w16 => 1
  | .w32 => 2
  | .w64 => 3
  | .w128 => 4
  | .w256 => 5

/-- The rounding mode to RM (R75). -/
def rmOf : RoundingMode → BitVec 2
  | .down => 0
  | .up => 1
  | .nearest => 2

/-- The fields of a command: ZERO = 0, and RM = 0 or WSEL = 5 where R76 fixes them. -/
def encodeFields : Instr → CmdFields
  | .wmul => ⟨0, 0, 5, 1⟩
  | .wdivrem => ⟨0, 0, 5, 2⟩
  | .rnd m => ⟨0, rmOf m, 5, 3⟩
  | .cvt w => ⟨0, 0, wselOf w, 4⟩
  | .muldiv w m => ⟨0, rmOf m, wselOf w, 5⟩
  | .mulshr w m => ⟨0, rmOf m, wselOf w, 6⟩
  | .avg w m => ⟨0, rmOf m, wselOf w, 7⟩
  | .cshl w => ⟨0, 0, wselOf w, 8⟩
  | .cshr w => ⟨0, 0, wselOf w, 9⟩
  | .clz w => ⟨0, 0, wselOf w, 10⟩
  | .log2 w m => ⟨0, rmOf m, wselOf w, 11⟩
  | .log256 w m => ⟨0, rmOf m, wselOf w, 12⟩

/-- The one word of a command (R70, R71). -/
def encode (i : Instr) : CmdWord := packFields (encodeFields i)

/-- The command whose bits are the low `nbits` of `w`; a command is one 16-bit word delivered whole (R52, R70), so bits
above 15 belong to no command. -/
def decodeTableWord (nbits w : Nat) : Option Instr :=
  match decode (BitVec.ofNat 16 (w % 2 ^ nbits)) with
  | .ok i => some i
  | .error _ => none

/-- The register a number names (R35). -/
def regOf (n : RegNum) : Option PortReg :=
  match n.toNat with
  | 0 => some .a
  | 1 => some .b
  | 2 => some .d
  | 3 => some .cmd
  | 4 => some .r0
  | 5 => some .r1
  | 6 => some .status
  | _ => none

end Sys2Proof
end

