-- ==== Sys2Proof/Config.lean ====
section
/-! DEFINITION. The free values (what the spec leaves unspecified) and the one open parameter. -/

namespace Sys2Proof

/-- The two admissible values of MULSHR_BOUND (R12, D20). -/
inductive ShiftBound where
  /-- `MULSHR_BOUND(W) = C = 256`, the default of the spec. -/
  | canonical
  /-- `MULSHR_BOUND(W) = W`. -/
  | perWidth
  deriving DecidableEq, Repr

/-- The 256-bit values that the spec leaves unspecified (R26, R27, R122, U1, U2, U4, U10), one for each draw. FREE: no body, nothing
can be proved of a value. Log entries 2, 4 and 5. -/
opaque Config.freeWord : Nat → Word

/-- The flag values left unspecified by R27 and R122 (U3, U4), one for each draw. FREE. Log entries 1 and 2. -/
opaque Config.freeFlag : Nat → Bool

/-- The FC value left unspecified by R27 (U3), one for each draw. FREE among 0 to 3, since "4 to 7 never occur" (R28, U9). Log
entries 1 and 11. -/
opaque Config.freeFc : Nat → BitVec 2

end Sys2Proof
end

