-- ==== Sys2Proof/Machine/State.lean ====
section
/-! DEFINITION. The state of the block and its value after reset, the spec's faults, and the reasons for which a step of
the model stops. -/

namespace Sys2Proof.Machine

/-- A data register with its poison mark (R20, R26). Under a mark the content is defined by nothing. -/
structure DataReg where
  /-- The 256-bit content (R21, R22). -/
  val : Word
  /-- The poison mark (R26). -/
  poisoned : Bool
  deriving DecidableEq, Repr

/-- The spec's faults (R201). Raising one is a next state (R206), never a stop of the model. -/
inductive Cause where
  /-- FC = 1 (R203). -/
  | divideByZero
  /-- FC = 2 (R204). -/
  | illegalShift
  /-- FC = 3 (R205). -/
  | illegalCommand
  deriving DecidableEq, Repr

/-- What an operation of the source yields: an abort, the overflow indicator with no usable value, or a value (R18, R200). -/
inductive KernelResult (α : Type) where
  /-- `raise c` (R16). -/
  | raise (c : Cause)
  /-- `(true, ⊥)` or `None` (R18). -/
  | overflow
  /-- `(false, v)` or `Some(v)` (R18). -/
  | value (v : α)
  deriving DecidableEq, Repr

/-- The state. `a` to `status` are all of the spec's state (R20); the last four fields are the model's own. -/
structure State where
  /-- Operand register A, number 0 (R21, R35). -/
  a : DataReg
  /-- Operand register B, number 1 (R21, R35). -/
  b : DataReg
  /-- Operand register D, number 2 (R21, R35). -/
  d : DataReg
  /-- Result register R0, number 4 (R22, R35). -/
  r0 : DataReg
  /-- Result register R1, number 5 (R22, R35). -/
  r1 : DataReg
  /-- STATUS, number 6 (R28). -/
  status : StatusWord
  /-- Model's own: the host's transactions still to be performed, oldest first (R58, R238; log entry 7). -/
  pending : List Transaction
  /-- Model's own: what the latest RD handed to the host (R56; log entry 8). -/
  readData : Option Word
  /-- Model's own: how many free values have been drawn (log entry 5). -/
  draws : Nat
  /-- Model's own: the value of the parameter MULSHR_BOUND (R12; log entry 6). -/
  mulshrBound : ShiftBound
  deriving DecidableEq, Repr

/-- The reasons for a stop with a fault: none. Each fault of the spec is an entry into the halted state (R206), which is a
next state, and the block has no memory whose absence could fault (R50). -/
inductive Fault where
  deriving DecidableEq, Repr

/-- The reasons for a refusal. -/
inductive Refusal where
  /-- An instruction without a meaning yet; raised by no arm of `exec`. -/
  | notModelled (mnemonic : String)
  /-- WR to 4, 5, 6 or 7, or RD of 3 or 7: "not a transaction of this block" (R35, U6). Raised by `hostWrite` and
  `hostRead`. Safe: the spec gives it no meaning. -/
  | noSuchTransaction
  /-- WR to CMD of a value that is not a 16-bit word (R34, R57). Raised by `hostWrite`. Safe: the spec gives it no
  meaning. DESIGN CHOICE, log entry 9. -/
  | commandTooWide
  deriving DecidableEq, Repr

/-- A data register after reset: poisoned (R38). Its content is the model's own choice (DESIGN CHOICE, unsafe, log entry
3). -/
def DataReg.afterReset : DataReg := { val := 0, poisoned := true }

/-- The machine right after reset (R38, R230): STATUS 0, every data register poisoned. -/
def State.reset : State :=
  { a := .afterReset, b := .afterReset, d := .afterReset, r0 := .afterReset, r1 := .afterReset, status := 0,
    pending := [], readData := none, draws := 0, mulshrBound := .canonical }

end Sys2Proof.Machine
end

