-- ==== Sys2Proof/Machine/Flags.lean ====
section
/-! DEFINITION. The fields of STATUS (R28) and every write of them (R30 to R33). -/

namespace Sys2Proof.Machine

/-- STATUS.OVF, bit 0 (R28). -/
def ovfOf (st : StatusWord) : Bool := st.getLsbD 0

/-- STATUS.VLD, bit 1 (R28). -/
def vldOf (st : StatusWord) : Bool := st.getLsbD 1

/-- STATUS.FC, bits 4:2 (R28). -/
def fcOf (st : StatusWord) : BitVec 3 := st.extractLsb' 2 3

/-- STATUS bits 15:5, reserved (R28, R33). -/
def reservedOf (st : StatusWord) : BitVec 11 := st.extractLsb' 5 11

/-- The STATUS word made of its fields (R28). -/
def packStatus (reserved : BitVec 11) (fc : BitVec 3) (vld ovf : Bool) : StatusWord :=
  reserved ++ fc ++ BitVec.ofBool vld ++ BitVec.ofBool ovf

/-- The cause codes of R28 and R201. -/
def causeCode : Cause → BitVec 3
  | .divideByZero => 1
  | .illegalShift => 2
  | .illegalCommand => 3

/-- `STATUS.OVF <- ovf; STATUS.VLD <- vld`: a command that completes writes these two bits and no other (R30, R31). -/
def setOutcome (st : StatusWord) (ovf vld : Bool) : StatusWord := packStatus (reservedOf st) (fcOf st) vld ovf

/-- `STATUS.FC <- c; STATUS.OVF <- 0; STATUS.VLD <- 0` (R206). -/
def setFault (st : StatusWord) (c : Cause) : StatusWord := packStatus (reservedOf st) (causeCode c) false false

/-- FC, OVF and VLD all unspecified (R27, U3): the draw `n`. FC stays among 0 to 3 (R28) and the reserved bits stay
(R33). -/
def setUnspecified (st : StatusWord) (n : Nat) : StatusWord :=
  packStatus (reservedOf st) ((Config.freeFc n).setWidth 3) (Config.freeFlag n) (Config.freeFlag (n + 1))

end Sys2Proof.Machine
end

