-- ==== Sys2Proof/Machine/Ops.lean ====
section
/-! DEFINITION. The named operations over the registers: poisoning, the three ends of a command, taking a fault and the way
out of the halted state, and the outcome the spec leaves unspecified. -/

namespace Sys2Proof.Machine

/-- `halted = (STATUS.FC ≠ 0)` (R39). -/
def State.halted (s : State) : Bool := fcOf s.status != 0

/-- `R0 <- v` (R16, R26). -/
def setR0 (v : Word) (s : State) : State := { s with r0 := { val := v, poisoned := false } }

/-- `R1 <- v` (R16, R26). -/
def setR1 (v : Word) (s : State) : State := { s with r1 := { val := v, poisoned := false } }

/-- `poison(R0)` (R16, R26): no defined value, so the content is a free value. -/
def poisonR0 (s : State) : State :=
  { s with r0 := { val := Config.freeWord s.draws, poisoned := true }, draws := s.draws + 1 }

/-- `poison(R1)` (R16, R26). -/
def poisonR1 (s : State) : State :=
  { s with r1 := { val := Config.freeWord s.draws, poisoned := true }, draws := s.draws + 1 }

/-- `poison(R0); poison(R1)`. -/
def poisonResults (s : State) : State := poisonR1 (poisonR0 s)

/-- The end of a command without fault: `STATUS.OVF <- ovf; STATUS.VLD <- vld` (R30, R31). -/
def writeOutcome (ovf vld : Bool) (s : State) : State := { s with status := setOutcome s.status ovf vld }

/-- A range violation: `poison(R0); poison(R1); STATUS.OVF <- 1; STATUS.VLD <- 0` (R30, R212). -/
def reportRange (s : State) : State := writeOutcome true false (poisonResults s)

/-- `R0 <- v; poison(R1); STATUS.OVF <- 0; STATUS.VLD <- 1` (R24, R31). -/
def completeOne (v : Word) (s : State) : State := writeOutcome false true (poisonR1 (setR0 v s))

/-- `R0 <- v; R1 <- u; STATUS.OVF <- 0; STATUS.VLD <- 1` (R102, R107). -/
def completeTwo (v u : Word) (s : State) : State := writeOutcome false true (setR1 u (setR0 v s))

/-- TAKING A FAULT (R206): FC gets the cause, OVF and VLD are cleared, R0 and R1 are poisoned, A, B and D are unchanged.
The block is then halted (R39). There is no handler, no vector and no saved state. -/
def takeFault (c : Cause) (s : State) : State := { poisonResults s with status := setFault s.status c }

/-- THE WAY OUT OF A FAULT (R208): the RESET transaction (R65, R230), which gives every piece of the block's state its
reset value (R38). The model's own fields are the host's and stay. -/
def resetBlock (s : State) : State :=
  { State.reset with pending := s.pending, readData := s.readData, draws := s.draws, mulshrBound := s.mulshrBound }

/-- The end of a command with one result (R131, R206, R212). -/
def finishOne (r : KernelResult Word) (s : State) : State :=
  match r with
  | .raise c => takeFault c s
  | .overflow => reportRange s
  | .value v => completeOne v s

/-- The end of a command with two results, R0 first (R24). -/
def finishTwo (r : KernelResult (Word × Word)) (s : State) : State :=
  match r with
  | .raise c => takeFault c s
  | .overflow => reportRange s
  | .value (v, u) => completeTwo v u s

/-- The end of a command with one result whose result the spec does not state, and which raises no fault (R122, U4):
whether it is a range violation is a free value, and so is the result if it is none. The rest is as after every command that
completes without a fault: FC stays (R32), VLD is the opposite of OVF (R31), and R0 and R1 carry the marks of R24 and R26.
DESIGN CHOICE that the command runs, log entry 2; DEDUCED what it leaves, log entry 16. -/
def completeUnstated (s : State) : State :=
  finishOne (if Config.freeFlag s.draws then .overflow else .value (Config.freeWord s.draws)) { s with draws := s.draws + 1 }

/-- A command on a poisoned operand, whose whole outcome the spec leaves unspecified (R27, U3): R0, R1, OVF, VLD and FC are
free values, so whether the block halts is free too; A, B and D are unchanged, as after any command (R25). DESIGN CHOICE,
safe, log entry 1: the spec advises a model to refuse here, and the model runs with nothing known of the outcome. -/
def unspecifiedOutcome (s : State) : State :=
  { poisonResults s with status := setUnspecified s.status s.draws }

end Sys2Proof.Machine
end

