-- ==== Sys2Proof/Machine/Operands.lean ====
section
/-! DEFINITION. The widths, the W-bit view of an operand (R40), the shift amount (R171), the bound of MULSHR's guard
(R150), and a command's read of its operand registers (R24, R27). -/

namespace Sys2Proof.Machine

/-- `bit_width(W)` (R11). -/
def bitWidth : Width → Nat
  | .w8 => 8
  | .w16 => 16
  | .w32 => 32
  | .w64 => 64
  | .w128 => 128
  | .w256 => 256

/-- `MAX(W) = 2^W − 1` (R11, R14). -/
def maxValue (w : Width) : Nat := 2 ^ bitWidth w - 1

/-- `MAXC = 2^256 − 1` as a register content (R14). -/
def maxC : Word := BitVec.allOnes 256

/-- `MAXH = 2^128 − 1`, the limit of the fast path (R14, R140). -/
def maxH : Nat := 2 ^ 128 - 1

/-- `zext_256(R[W−1:0])`, the W-bit view (R40). -/
def view (w : Width) (v : Word) : Word := (v.setWidth (bitWidth w)).setWidth 256

/-- The shift amount: all 256 bits, read as an unsigned integer (R150, R171). -/
def shiftAmount (v : Word) : Nat := v.toNat

/-- `MULSHR_BOUND(W)` (R12, R150). -/
def shiftLimit (bound : ShiftBound) (w : Width) : Nat :=
  match bound with
  | .canonical => 256
  | .perWidth => bitWidth w

/-- A command that reads the operand registers `rs`: with a poisoned one the outcome is unspecified (R27), otherwise it is
the command's own. -/
def withOperands (rs : List DataReg) (s : State) (own : State) : State :=
  if rs.any (fun r => r.poisoned) then unspecifiedOutcome s else own

/-- `None` of a checked operation is reported as overflow (R18, R212). -/
def ofOption (o : Option Word) : KernelResult Word :=
  match o with
  | none => .overflow
  | some v => .value v

end Sys2Proof.Machine
end

