-- ==== Sys2Proof/Machine/RoundConvert.lean ====
section
/-! DEFINITION. The rounding policy comparator (R120), the output width converter (R128), and the commands RND and CVT. -/

namespace Sys2Proof.Machine

/-- `should_round_up` for a non-zero remainder (R120). -/
def roundsUp (denominator remainder : Word) (mode : RoundingMode) : Bool :=
  match mode with
  | .down => false
  | .up => true
  | .nearest => decide (denominator - remainder ≤ remainder)

/-- `round(result, denominator, remainder, mode)` (R120), for `remainder < denominator`. The working width is C (C8). -/
def roundPolicy (result denominator remainder : Word) (mode : RoundingMode) : KernelResult Word :=
  if remainder = 0 then .value result
  else if roundsUp denominator remainder mode then
    if result = maxC then .overflow else .value (result + 1)
  else .value result

/-- `narrow(v, W)` (R128). -/
def narrow (w : Width) (v : Word) : KernelResult Word :=
  if maxValue w < v.toNat then .overflow else .value v

/-- `if not o: (o, v) = narrow(v, W)`: the last source of the overflow accumulator (R131). -/
def thenNarrow (w : Width) (r : KernelResult Word) : KernelResult Word :=
  match r with
  | .raise c => .raise c
  | .overflow => .overflow
  | .value v => narrow w v

/-- RND (R122). With B ≥ D the outcome is unspecified, but never a fault (U4, D25, R203). -/
def execRnd (m : RoundingMode) (s : State) : Host.Outcome State Fault Refusal :=
  .next (withOperands [s.a, s.b, s.d] s
    (if s.b.val < s.d.val then finishOne (roundPolicy s.a.val s.d.val s.b.val m) s else completeUnstated s))

/-- CVT (R130): all 256 bits of A. -/
def execCvt (w : Width) (s : State) : Host.Outcome State Fault Refusal :=
  .next (withOperands [s.a] s (finishOne (narrow w s.a.val) s))

end Sys2Proof.Machine
end

