-- ==== Sys2Proof/Machine/WideInteger.lean ====
section
/-! DEFINITION. The wide integer unit: the multi-limb multiplier (R101), the binary long divider (R105), and the commands
WMUL and WDIVREM. -/

namespace Sys2Proof.Machine

/-- `p.lo` of a partial product: its low 128 bits (R101). -/
def halfLo (p : Nat) : Nat := p % 2 ^ 128

/-- `p.hi` of a partial product: what stands above its low 128 bits (R101). -/
def halfHi (p : Nat) : Nat := p / 2 ^ 128

/-- The first diagonal `s1 = p0.hi + p1.lo + p2.lo` (R101). -/
def diagonal1 (p0 p1 p2 : Nat) : Nat := halfHi p0 + halfLo p1 + halfLo p2

/-- The second diagonal `s2 = p1.hi + p2.hi + p3.lo + c1` (R101). -/
def diagonal2 (p1 p2 p3 c1 : Nat) : Nat := halfHi p1 + halfHi p2 + halfLo p3 + c1

/-- The third diagonal `s3 = p3.hi + c2` (R101). -/
def diagonal3 (p3 c2 : Nat) : Nat := halfHi p3 + c2

/-- The limbs of the product from its four partial products, least significant first, and last the final carry `c3`,
which R104 says is 0 (R101). -/
def combineProducts (p0 p1 p2 p3 : Nat) : List Nat :=
  let s1 := diagonal1 p0 p1 p2
  let s2 := diagonal2 p1 p2 p3 (halfHi s1)
  let s3 := diagonal3 p3 (halfHi s2)
  [halfLo p0, halfLo s1, halfLo s2, halfLo s3, halfHi s3]

/-- The limbs of `a·b` (R101). -/
def productLimbs (a b : Word) : List Nat :=
  combineProducts (halfLo a.toNat * halfLo b.toNat) (halfLo a.toNat * halfHi b.toNat)
    (halfHi a.toNat * halfLo b.toNat) (halfHi a.toNat * halfHi b.toNat)

/-- Two limbs as one 256-bit half: `{hi, lo}`. -/
def joinLimbs (hi lo : Nat) : Word := BitVec.ofNat 256 (hi * 2 ^ 128 + lo)

/-- `wmul(a, b)` (R101). The final carry is not looked at: the assertion on it is not observable (R104). -/
def wmul (a b : Word) : Wide :=
  match productLimbs a b with
  | [limb0, limb1, limb2, limb3, _] => { hi := joinLimbs limb3 limb2, lo := joinLimbs limb1 limb0 }
  | _ => Wide.zero

/-- `rem = (rem << 1) | val(n)[i]` (R105). -/
def shiftInBit (n rem i : Nat) : Nat := (rem <<< 1) ||| (n.testBit i).toNat

/-- The loop of the divider, at positions `i − 1` down to 0 (R105): `none` is the short-circuit with overflow, otherwise
the quotient and the remainder. -/
def divLoop (n d : Nat) : Nat → Nat → Nat → Option (Nat × Nat)
  | 0, rem, q => some (q, rem)
  | i + 1, rem, q =>
    if d ≤ shiftInBit n rem i then
      if 256 ≤ i then none
      else divLoop n d i (shiftInBit n rem i - d) (q ||| 1 <<< i)
    else divLoop n d i (shiftInBit n rem i) q

/-- `div_rem(n, d)` (R105, R108): 512 positions, the zero test before the loop. -/
def divRem (n : Wide) (d : Word) : KernelResult (Word × Word) :=
  if d = 0 then .raise .divideByZero
  else match divLoop n.val d.toNat 512 0 0 with
    | none => .overflow
    | some (q, rem) => .value (BitVec.ofNat 256 q, BitVec.ofNat 256 rem)

/-- A WideUint as the pair written to R0 (low limb) and R1 (high limb) (R102). -/
def limbPair (n : Wide) : Word × Word := (n.lo, n.hi)

/-- WMUL (R102). -/
def execWmul (s : State) : Host.Outcome State Fault Refusal :=
  .next (withOperands [s.a, s.b] s (finishTwo (.value (limbPair (wmul s.a.val s.b.val))) s))

/-- WDIVREM (R107). -/
def execWdivrem (s : State) : Host.Outcome State Fault Refusal :=
  .next (withOperands [s.a, s.b, s.d] s
    (finishTwo (divRem { hi := s.b.val, lo := s.a.val } s.d.val) s))

end Sys2Proof.Machine
end

