-- ==== Sys2Proof/Machine/MulDivAvg.lean ====
section
/-! DEFINITION. The kernels `mul_div` (R140), `mul_shr` (R152) and `average` (R161), and the commands MULDIV, MULSHR, AVG. -/

namespace Sys2Proof.Machine

/-- The fast path of `mul_div`: native 256-bit arithmetic (R140, R142). -/
def mulDivFast (a b d : Word) (mode : RoundingMode) : KernelResult Word :=
  roundPolicy (a * b / d) d (a * b % d) mode

/-- The wide path of `mul_div` (R140). -/
def mulDivWide (a b d : Word) (mode : RoundingMode) : KernelResult Word :=
  match divRem (wmul a b) d with
  | .raise c => .raise c
  | .overflow => .overflow
  | .value (q, r) => roundPolicy q d r mode

/-- `mul_div(a, b, d, mode)` (R140); the zero test comes first (R144). -/
def mulDiv (a b d : Word) (mode : RoundingMode) : KernelResult Word :=
  if d = 0 then .raise .divideByZero
  else if a.toNat ≤ maxH ∧ b.toNat ≤ maxH then mulDivFast a b d mode
  else mulDivWide a b d mode

/-- `mul_shr` for `shift == 0`: the exact product, overflow iff its high limb is non-zero (R152). -/
def mulExact (a b : Word) : KernelResult Word :=
  if (wmul a b).hi ≠ 0 then .overflow else .value (wmul a b).lo

/-- `mul_shr(a, b, s, mode)` for s below 256 (R152). -/
def mulShr (a b : Word) (s : Nat) (mode : RoundingMode) : KernelResult Word :=
  if s = 0 then mulExact a b else mulDiv a b (BitVec.twoPow 256 s) mode

/-- MULSHR behind its guard (R150, R151). -/
def mulShrGuarded (bound : ShiftBound) (w : Width) (a b : Word) (s : Nat) (mode : RoundingMode) : KernelResult Word :=
  if shiftLimit bound w ≤ s then .raise .illegalShift else mulShr a b s mode

/-- `lower + half` (R161). -/
def addHalf (lower : Word) (half : KernelResult Word) : KernelResult Word :=
  match half with
  | .raise c => .raise c
  | .overflow => .overflow
  | .value h => .value (lower + h)

/-- `average(a, b, mode)` (R161). The halving never overflows and never divides by zero (R162). -/
def average (a b : Word) (mode : RoundingMode) : KernelResult Word :=
  if a = b then .value a
  else if a < b then addHalf a (mulDiv (b - a) 1 2 mode)
  else addHalf b (mulDiv (a - b) 1 2 mode)

/-- MULDIV (R141). -/
def execMuldiv (w : Width) (m : RoundingMode) (s : State) : Host.Outcome State Fault Refusal :=
  .next (withOperands [s.a, s.b, s.d] s
    (finishOne (thenNarrow w (mulDiv (view w s.a.val) (view w s.b.val) (view w s.d.val) m)) s))

/-- MULSHR (R151). -/
def execMulshr (w : Width) (m : RoundingMode) (s : State) : Host.Outcome State Fault Refusal :=
  .next (withOperands [s.a, s.b, s.d] s
    (finishOne (thenNarrow w
      (mulShrGuarded s.mulshrBound w (view w s.a.val) (view w s.b.val) (shiftAmount s.d.val) m)) s))

/-- AVG (R160). -/
def execAvg (w : Width) (m : RoundingMode) (s : State) : Host.Outcome State Fault Refusal :=
  .next (withOperands [s.a, s.b] s (finishOne (average (view w s.a.val) (view w s.b.val) m) s))

end Sys2Proof.Machine
end

