-- ==== Sys2Proof/Machine/ShiftLog.lean ====
section
/-! DEFINITION. The barrel shifter (R170), the leading-zero counter (R175), the exact logarithms (R179, R182, R185), and the
commands CSHL, CSHR, CLZ, LOG2, LOG256. -/

namespace Sys2Proof.Machine

/-- `shl_W(v, s) = trunc_W(v << s)` (R170). -/
def shlW (w : Width) (v : Word) (s : Nat) : Word := view w (v <<< s)

/-- `shr_W(v, s) = v >> s` (R170). -/
def shrW (v : Word) (s : Nat) : Word := v >>> s

/-- `checked_shl` (R172): shift, shift back, compare; `None` for s ≥ W, the value unchanged for s = 0. -/
def checkedShl (w : Width) (v : Word) (s : Nat) : Option Word :=
  if bitWidth w ≤ s then none
  else if s = 0 then some v
  else if shrW (shlW w v s) s = v then some (shlW w v s) else none

/-- `checked_shr` (R173). -/
def checkedShr (w : Width) (v : Word) (s : Nat) : Option Word :=
  if bitWidth w ≤ s then none
  else if s = 0 then some v
  else if shlW w (shrW v s) s = v then some (shrW v s) else none

/-- The halving loop of `clz` (R175), with fuel for its iterations: the working value, the running count, the shift. -/
def clzLoop : Nat → Nat → Nat → Nat → Nat
  | 0, _, count, _ => count
  | fuel + 1, v, count, shift =>
    if shift = 0 then count
    else if v >>> shift = 0 then clzLoop fuel v (count + shift) (shift / 2)
    else clzLoop fuel (v >>> shift) count (shift / 2)

/-- `clz(value, W)` (R175). Eight iterations bring a shift of at most 128 to 0 (R177 b). -/
def countLeadingZeros (value bits : Nat) : Nat :=
  if value = 0 then bits else clzLoop 8 value 0 (bits / 2)

/-- `f = W − 1 − clz(value, W)` (R179). -/
def floorLog2 (value bits : Nat) : Nat := bits - 1 - countLeadingZeros value bits

/-- `value·value ≥ 2^e`, on the fast path when the square fits 256 bits and else on the slow path through `wmul` (R182,
R187 c). -/
def squareReaches (v : Word) (e : Nat) : Bool :=
  if v.toNat ≤ maxH then decide (2 ^ e ≤ (v * v).toNat)
  else decide (2 ^ (e - 256) ≤ (wmul v v).hi.toNat)

/-- The choice among a floor and the next number that both logarithms make for a value that is no exact power (R179,
R185). -/
def roundLog (floor : Nat) (mode : RoundingMode) (nearestUp : Bool) : Nat :=
  match mode with
  | .down => floor
  | .up => floor + 1
  | .nearest => if nearestUp then floor + 1 else floor

/-- `log2(value, W, mode)` (R179). -/
def log2Of (w : Width) (v : Word) (mode : RoundingMode) : Nat :=
  let f := floorLog2 v.toNat (bitWidth w)
  if v = 0 then 0
  else if v.toNat = 2 ^ f then f
  else roundLog f mode (squareReaches v (2 * f + 1))

/-- `log256(value, W, mode)` (R185, R188). -/
def log256Of (w : Width) (v : Word) (mode : RoundingMode) : Nat :=
  let f2 := floorLog2 v.toNat (bitWidth w)
  let k := f2 / 8
  if v = 0 then 0
  else if f2 % 8 = 0 ∧ v.toNat = 2 ^ (8 * k) then k
  else roundLog k mode (squareReaches v (16 * k + 8))

/-- A count or a logarithm as a register content, zero-extended (R176, R180, R186). -/
def countWord (n : Nat) : Word := BitVec.ofNat 256 n

/-- CSHL (R172). -/
def execCshl (w : Width) (s : State) : Host.Outcome State Fault Refusal :=
  .next (withOperands [s.a, s.d] s
    (finishOne (ofOption (checkedShl w (view w s.a.val) (shiftAmount s.d.val))) s))

/-- CSHR (R173). -/
def execCshr (w : Width) (s : State) : Host.Outcome State Fault Refusal :=
  .next (withOperands [s.a, s.d] s
    (finishOne (ofOption (checkedShr w (view w s.a.val) (shiftAmount s.d.val))) s))

/-- CLZ (R176). -/
def execClz (w : Width) (s : State) : Host.Outcome State Fault Refusal :=
  .next (withOperands [s.a] s
    (finishOne (.value (countWord (countLeadingZeros (view w s.a.val).toNat (bitWidth w)))) s))

/-- LOG2 (R180). -/
def execLog2 (w : Width) (m : RoundingMode) (s : State) : Host.Outcome State Fault Refusal :=
  .next (withOperands [s.a] s (finishOne (.value (countWord (log2Of w (view w s.a.val) m))) s))

/-- LOG256 (R186). -/
def execLog256 (w : Width) (m : RoundingMode) (s : State) : Host.Outcome State Fault Refusal :=
  .next (withOperands [s.a] s (finishOne (.value (countWord (log256Of w (view w s.a.val) m))) s))

end Sys2Proof.Machine
end

