-- ==== Sys2Proof/Machine/Dispatch.lean ====
section
/-! DEFINITION. One arm per command: its meaning (R77, R78). -/

namespace Sys2Proof.Machine

/-- The rule of the selected command, executed to completion (R57, R78). -/
def exec (i : Instr) (s : State) : Host.Outcome State Fault Refusal :=
  match i with
  | .wmul => Sys2Proof.Machine.execWmul s
  | .wdivrem => Sys2Proof.Machine.execWdivrem s
  | .rnd m => Sys2Proof.Machine.execRnd m s
  | .cvt w => Sys2Proof.Machine.execCvt w s
  | .muldiv w m => Sys2Proof.Machine.execMuldiv w m s
  | .mulshr w m => Sys2Proof.Machine.execMulshr w m s
  | .avg w m => Sys2Proof.Machine.execAvg w m s
  | .cshl w => Sys2Proof.Machine.execCshl w s
  | .cshr w => Sys2Proof.Machine.execCshr w s
  | .clz w => Sys2Proof.Machine.execClz w s
  | .log2 w m => Sys2Proof.Machine.execLog2 w m s
  | .log256 w m => Sys2Proof.Machine.execLog256 w m s

end Sys2Proof.Machine
end

