-- ==== Sys2Proof/Machine/Transactions.lean ====
section
/-! DEFINITION. The four host transactions: RESET, WR, RD, ISSUE (R55, R56, R57, R65, R207). -/

namespace Sys2Proof.Machine

/-- ISSUE c (R57): no effect on a halted block (R207); else decode, and execute the command or raise IllegalCommand
(R78, R82), which reads no operand register (R205). -/
def issueWord (c : CmdWord) (s : State) : Host.Outcome State Fault Refusal :=
  if s.halted then .next s
  else match decode c with
    | .ok i => exec i s
    | .error _ => .next (takeFault .illegalCommand s)

/-- What WR leaves in a register: the value, unmarked (R26, R55). -/
def written (v : Word) : DataReg := { val := v, poisoned := false }

/-- WR to CMD is ISSUE (R34, R57); a value that is no 16-bit word is no transaction (log entry 9). -/
def writeCmd (v : Word) (s : State) : Host.Outcome State Fault Refusal :=
  if v.toNat < 2 ^ 16 then issueWord (v.setWidth 16) s else .refused .commandTooWide

/-- WR n, v (R35, R55): no effect on a halted block (R207). -/
def hostWrite (n : RegNum) (v : Word) (s : State) : Host.Outcome State Fault Refusal :=
  match regOf n with
  | some .a => .next (if s.halted then s else { s with a := written v })
  | some .b => .next (if s.halted then s else { s with b := written v })
  | some .d => .next (if s.halted then s else { s with d := written v })
  | some .cmd => writeCmd v s
  | some .r0 => .refused .noSuchTransaction
  | some .r1 => .refused .noSuchTransaction
  | some .status => .refused .noSuchTransaction
  | none => .refused .noSuchTransaction

/-- The value of an RD reaches the host (R56). -/
def answer (v : Word) (s : State) : State := { s with readData := some v }

/-- An RD of a data register: its content, or under a poison mark an unspecified value drawn afresh (R27, R56, U2). -/
def answerReg (r : DataReg) (s : State) : State :=
  if r.poisoned then { answer (Config.freeWord s.draws) s with draws := s.draws + 1 } else answer r.val s

/-- RD n (R35, R56): STATUS is zero-extended from 16 bits; allowed whether or not the block is halted. -/
def hostRead (n : RegNum) (s : State) : Host.Outcome State Fault Refusal :=
  match regOf n with
  | some .a => .next (answerReg s.a s)
  | some .b => .next (answerReg s.b s)
  | some .d => .next (answerReg s.d s)
  | some .r0 => .next (answerReg s.r0 s)
  | some .r1 => .next (answerReg s.r1 s)
  | some .status => .next (answer (s.status.setWidth 256) s)
  | some .cmd => .refused .noSuchTransaction
  | none => .refused .noSuchTransaction

/-- One host transaction as a state transformer (R58). -/
def perform (t : Transaction) (s : State) : Host.Outcome State Fault Refusal :=
  match t with
  | .reset => .next (resetBlock s)
  | .wr n v => hostWrite n v s
  | .rd n => hostRead n s
  | .issue c => issueWord c s

/-- The host's transaction is taken from the port before it is performed (R58). -/
def takeTransaction (rest : List Transaction) (s : State) : State := { s with pending := rest }

/-- Place a command word as the host's very next transaction. -/
def placeCommand (c : CmdWord) (s : State) : State := { s with pending := .issue c :: s.pending }

end Sys2Proof.Machine
end

