-- ==== Sys2Proof/Machine/Step.lean ====
section
/-! DEFINITION. One step of the machine: one host transaction (R58, R238). -/

namespace Sys2Proof.Machine

/-- The next host transaction is performed to completion (R57, R58). With none, the block waits and nothing changes
(R231, R238). -/
def step (s : State) : Host.Outcome State Fault Refusal :=
  match s.pending with
  | [] => .next s
  | t :: rest => perform t (takeTransaction rest s)

/-- `s` with the command whose bits are the low `nbits` of `w` as the host's very next transaction (ISSUE). The block
fetches nothing (R61), so this stands for the host; log entry 7. -/
def State.withFetchWord (s : State) (nbits w : Nat) : State :=
  placeCommand (BitVec.ofNat 16 (w % 2 ^ nbits)) s

end Sys2Proof.Machine
end

