-- ==== Sys2Proof/Safety.lean ====
section
/-! DEFINITION. The terms that claims use: exact arithmetic (R14, R124), the ends of a command (R24, R30 to R32, R206), the
invariants of the block, and what a conforming host does (R233). Nothing here is used by the machine. -/

namespace Sys2Proof.Machine

/-- `rounded(N, d, mode)` of R124, in exact arithmetic. -/
def rounded (n d : Nat) : RoundingMode → Nat
  | .down => n / d
  | .up => n / d + if n % d ≠ 0 then 1 else 0
  | .nearest => n / d + if d ≤ 2 * (n % d) ∧ n % d ≠ 0 then 1 else 0

/-- The base-b logarithm of `n` in exact arithmetic, 0 for 0: the floor under Down, the ceiling under Up, and under Nearest
one more than the floor f iff `n² ≥ b^(2·f + 1)`, the square of the geometric midpoint of b^f and b^(f+1) (R181, R187). -/
def exactLog (b n : Nat) : RoundingMode → Nat
  | .down => Nat.log b n
  | .up => Nat.clog b n
  | .nearest => if b ^ (2 * Nat.log b n + 1) ≤ n * n then Nat.log b n + 1 else Nat.log b n

/-- The exact result `n` where it is at most `limit`, and otherwise the overflow indicator (R30, R134). -/
def exactUpTo (limit n : Nat) : KernelResult Word := if n ≤ limit then .value (BitVec.ofNat 256 n) else .overflow

/-- The W-bit view of a register content as a natural number (R40). -/
def viewNat (w : Width) (v : Word) : Nat := v.toNat % 2 ^ bitWidth w

/-- The operand registers a command reads hold defined values: column "r" of R24. -/
def operandsDefined (i : Instr) (s : State) : Bool :=
  match i with
  | .wmul | .avg _ _ => !s.a.poisoned && !s.b.poisoned
  | .wdivrem | .rnd _ | .muldiv _ _ | .mulshr _ _ => !s.a.poisoned && !s.b.poisoned && !s.d.poisoned
  | .cshl _ | .cshr _ => !s.a.poisoned && !s.d.poisoned
  | .cvt _ | .clz _ | .log2 _ _ | .log256 _ _ => !s.a.poisoned

/-- The one precondition a command has: B < D for RND (R122). -/
def preconditionMet (i : Instr) (s : State) : Bool :=
  match i with
  | .rnd _ => decide (s.b.val.toNat < s.d.val.toNat)
  | .wmul | .wdivrem | .cvt _ | .muldiv _ _ | .mulshr _ _ | .avg _ _ | .cshl _ | .cshr _ | .clz _ | .log2 _ _
  | .log256 _ _ => true

/-- The spec determines the outcome of the command in this state (R27, R122, R233). -/
def determined (i : Instr) (s : State) : Bool := operandsDefined i s && preconditionMet i s

/-- The command defines both R0 and R1 (R24). -/
def definesTwo : Instr → Bool
  | .wmul | .wdivrem => true
  | .rnd _ | .cvt _ | .muldiv _ _ | .mulshr _ _ | .avg _ _ | .cshl _ | .cshr _ | .clz _ | .log2 _ _ | .log256 _ _ => false

/-- What every command leaves as it was: A, B and D with their marks (R25), the reserved bits of STATUS (R33), and the
model's own fields but for the count of free values. -/
structure Kept (s t : State) : Prop where
  a : t.a = s.a
  b : t.b = s.b
  d : t.d = s.d
  reserved : reservedOf t.status = reservedOf s.status
  pending : t.pending = s.pending
  readData : t.readData = s.readData
  mulshrBound : t.mulshrBound = s.mulshrBound

/-- The command ended with VLD = 1, R0 = v and R1 poisoned (R24, R31). -/
structure EndsWithValue (s t : State) (v : Nat) : Prop where
  r0 : t.r0.val.toNat = v
  r0Defined : t.r0.poisoned = false
  r1 : t.r1.poisoned = true
  ovf : ovfOf t.status = false
  vld : vldOf t.status = true
  fc : fcOf t.status = fcOf s.status
  kept : Kept s t

/-- The command ended with VLD = 1, R0 = v and R1 = u (R24, R31). -/
structure EndsWithTwo (s t : State) (v u : Nat) : Prop where
  r0 : t.r0.val.toNat = v
  r0Defined : t.r0.poisoned = false
  r1 : t.r1.val.toNat = u
  r1Defined : t.r1.poisoned = false
  ovf : ovfOf t.status = false
  vld : vldOf t.status = true
  fc : fcOf t.status = fcOf s.status
  kept : Kept s t

/-- The command reported a range violation (R30, R212). -/
structure EndsWithRange (s t : State) : Prop where
  r0 : t.r0.poisoned = true
  r1 : t.r1.poisoned = true
  ovf : ovfOf t.status = true
  vld : vldOf t.status = false
  fc : fcOf t.status = fcOf s.status
  kept : Kept s t

/-- A fault was taken (R206). -/
structure EndsWithFault (s t : State) (c : Cause) : Prop where
  r0 : t.r0.poisoned = true
  r1 : t.r1.poisoned = true
  ovf : ovfOf t.status = false
  vld : vldOf t.status = false
  fc : fcOf t.status = causeCode c
  kept : Kept s t

/-- What is left true of a command without fault whose one result the spec does not state (R122): exactly one of OVF and VLD
is 1 (R31), R0 is defined with VLD = 1 and poisoned with OVF = 1, R1 is poisoned (R24, R26), and FC stays (R32). Nothing is
said of which of the two it is, or of the content of R0. -/
structure EndsUnstated (s t : State) : Prop where
  r0 : t.r0.poisoned = ovfOf t.status
  r1 : t.r1.poisoned = true
  vld : vldOf t.status = !ovfOf t.status
  fc : fcOf t.status = fcOf s.status
  kept : Kept s t

/-- What is left true by a command on a poisoned operand (R25, R27, R28, R33; log entries 11 and 12). Nothing is said of OVF,
VLD, of FC beyond R28, or of the contents of R0 and R1, which are poisoned. -/
structure EndsUnspecified (s t : State) : Prop where
  r0 : t.r0.poisoned = true
  r1 : t.r1.poisoned = true
  fc : (fcOf t.status).toNat ≤ 3
  kept : Kept s t

/-- What every step keeps: the reserved bits of STATUS read 0 (R33), FC is 0 to 3 (R28), the results of a halted block are
poisoned (R56), and without VLD no result is defined (R28, R30, R32). -/
structure State.Inv (s : State) : Prop where
  reserved : reservedOf s.status = 0
  fc : (fcOf s.status).toNat ≤ 3
  haltedPoisoned : s.halted = true → s.r0.poisoned = true ∧ s.r1.poisoned = true
  invalidPoisoned : vldOf s.status = false → s.r0.poisoned = true ∧ s.r1.poisoned = true

/-- What every step of a conforming host keeps besides: STATUS is one of the six words that occur (R28, R31, R32), and with
VLD = 1 register R0 holds a defined value (R28). -/
structure State.Coherent (s : State) : Prop where
  inv : s.Inv
  status : s.status.toNat ∈ [0x0000, 0x0001, 0x0002, 0x0004, 0x0008, 0x000C]
  validDefined : vldOf s.status = true → s.r0.poisoned = false

/-- ISSUE by a conforming host (R233): on a halted block it has no effect, an illegal word faults (R205), and a command
finds its operands written and its precondition met. -/
def conformingIssue (c : CmdWord) (s : State) : Bool :=
  s.halted || match decode c with
    | .ok i => determined i s
    | .error _ => true

/-- RD by a conforming host (R233): R0 with VLD = 1, R1 with VLD = 1 and defined by the last command, an operand register
once it is written, STATUS always. -/
def conformingRead (n : RegNum) (s : State) : Bool :=
  match regOf n with
  | some .a => !s.a.poisoned
  | some .b => !s.b.poisoned
  | some .d => !s.d.poisoned
  | some .r0 => vldOf s.status
  | some .r1 => vldOf s.status && !s.r1.poisoned
  | some .status => true
  | some .cmd | none => false

/-- The transaction is one a conforming host performs in this state (R233, R35). -/
def conforming (t : Transaction) (s : State) : Bool :=
  t.allowed && match t with
    | .reset => true
    | .wr n v => if n = 3 then conformingIssue (v.setWidth 16) s else true
    | .rd n => conformingRead n s
    | .issue c => conformingIssue c s

/-- The host's next transaction, if there is one, is a conforming one. -/
def conformingNext (s : State) : Bool :=
  match s.pending with
  | [] => true
  | t :: _ => conforming t s

/-- Two data registers that the spec does not tell apart: the same mark, and the same content where it is defined (R26). -/
def DataReg.Same (x y : DataReg) : Prop := x.poisoned = y.poisoned ∧ (x.poisoned = false → x.val = y.val)

/-- Two states that differ in nothing the spec defines: the free values under poison marks and their count may differ. -/
structure SameDefined (s t : State) : Prop where
  a : s.a.Same t.a
  b : s.b.Same t.b
  d : s.d.Same t.d
  r0 : s.r0.Same t.r0
  r1 : s.r1.Same t.r1
  status : s.status = t.status
  pending : s.pending = t.pending
  readData : s.readData = t.readData
  mulshrBound : s.mulshrBound = t.mulshrBound

/-- Two ends of a command that the host cannot tell apart: the same results where they are defined, the same OVF, VLD, FC. -/
structure SameOutcome (t u : State) : Prop where
  r0 : t.r0.Same u.r0
  r1 : t.r1.Same u.r1
  ovf : ovfOf t.status = ovfOf u.status
  vld : vldOf t.status = vldOf u.status
  fc : fcOf t.status = fcOf u.status

/-- The width a command runs at: its WSEL, which is 5 for WMUL, WDIVREM and RND (R76). -/
def commandWidth : Instr → Width
  | .wmul | .wdivrem | .rnd _ => .w256
  | .cvt w | .muldiv w _ | .mulshr w _ | .avg w _ | .cshl w | .cshr w | .clz w | .log2 w _ | .log256 w _ => w

/-- What a command sees of its operands (R40): the W-bit views of A and B, all of A for CVT, and of D the W-bit view when it
holds a denominator and all of it when it holds a shift amount. -/
def SameOperandView (i : Instr) (s t : State) : Prop :=
  match i with
  | .wmul => s.a.val = t.a.val ∧ s.b.val = t.b.val
  | .wdivrem | .rnd _ => s.a.val = t.a.val ∧ s.b.val = t.b.val ∧ s.d.val = t.d.val
  | .cvt _ => s.a.val = t.a.val
  | .muldiv w _ => viewNat w s.a.val = viewNat w t.a.val ∧ viewNat w s.b.val = viewNat w t.b.val ∧
      viewNat w s.d.val = viewNat w t.d.val
  | .mulshr w _ => viewNat w s.a.val = viewNat w t.a.val ∧ viewNat w s.b.val = viewNat w t.b.val ∧
      s.d.val = t.d.val ∧ s.mulshrBound = t.mulshrBound
  | .avg w _ => viewNat w s.a.val = viewNat w t.a.val ∧ viewNat w s.b.val = viewNat w t.b.val
  | .cshl w | .cshr w => viewNat w s.a.val = viewNat w t.a.val ∧ s.d.val = t.d.val
  | .clz w | .log2 w _ | .log256 w _ => viewNat w s.a.val = viewNat w t.a.val

/-- The end state of a correct computation (R239): no fault, and a result. -/
def finished (s : State) : Bool := !s.halted && vldOf s.status

end Sys2Proof.Machine
end

