-- ==== Sys2Proof/Certificates/Slice0/Obligations.lean ====
section
/-! DEFINITION. The statements for the provers. Each docstring names the rule or the section a statement formalises. Where
a statement rests on a choice of the model, its docstring names the log entry. -/

open Sys2Proof Sys2Proof.Machine

-- Encoding

/-- A word decodes to a command exactly when it is the command's encoding: nothing in a legal word is dropped, and no other
word is legal (R77, R78). -/
def Obligations.DecodeAndEncodeAreInverse : Prop :=
  ∀ (c : CmdWord) (i : Instr), decode c = .ok i ↔ encode i = c

/-- R71: the places of the four fields in every word, and `word = RM·128 + WSEL·16 + OP` when ZERO is 0. -/
def Obligations.WordFieldLayout : Prop :=
  (∀ c : CmdWord, (fieldsOf c).op.toNat = c.toNat % 16 ∧ (fieldsOf c).wsel.toNat = c.toNat / 16 % 8 ∧
    (fieldsOf c).rm.toNat = c.toNat / 128 % 4 ∧ (fieldsOf c).zero.toNat = c.toNat / 512) ∧
  ∀ f : CmdFields, f.zero = 0 → (packFields f).toNat = f.rm.toNat * 128 + f.wsel.toNat * 16 + f.op.toNat

/-- The columns match and mask of R77 for the row of a command. -/
def Sys2Proof.Certificates.tableRow : Instr → CmdWord × CmdWord
  | .wmul => (0x0051, 0xFFFF)
  | .wdivrem => (0x0052, 0xFFFF)
  | .rnd _ => (0x0053, 0xFE7F)
  | .cvt _ => (0x0004, 0xFF8F)
  | .muldiv _ _ => (0x0005, 0xFE0F)
  | .mulshr _ _ => (0x0006, 0xFE0F)
  | .avg _ _ => (0x0007, 0xFE0F)
  | .cshl _ => (0x0008, 0xFF8F)
  | .cshr _ => (0x0009, 0xFF8F)
  | .clz _ => (0x000A, 0xFF8F)
  | .log2 _ _ => (0x000B, 0xFE0F)
  | .log256 _ _ => (0x000C, 0xFE0F)

/-- R77: "A word w selects the row when (w AND mask) = match and the free fields hold legal codes (WSEL ≤ 5, RM ≤ 2)." For
every word and every row: some command of that row is decoded exactly when the word selects the row. A word of a reserved
row selects nothing. -/
def Obligations.DecodedRowIsSelectedByMatchAndMask : Prop :=
  (∀ (c : CmdWord) (i : Instr),
    (∃ j, decode c = .ok j ∧ Certificates.tableRow j = Certificates.tableRow i) ↔
      c &&& (Certificates.tableRow i).2 = (Certificates.tableRow i).1 ∧
        (fieldsOf c).wsel.toNat ≤ 5 ∧ (fieldsOf c).rm.toNat ≤ 2) ∧
  ∀ c : CmdWord, (fieldsOf c).op.toNat ∈ [0x0, 0xD, 0xE, 0xF] → ¬ ∃ i, decode c = .ok i

/-- The chain of checks of R78 accepts exactly the words whose fields obey the table of R76 and avoid the reserved space of
R81. -/
def Obligations.DecoderAcceptsExactlyLegalFields : Prop :=
  ∀ c : CmdWord, (∃ i, decode c = .ok i) ↔ (fieldsOf c).wellFormed = true

/-- R87: the number of legal words of each command and of all; the words in the list are the legal ones and no others. -/
def Obligations.LegalWordCounts : Prop :=
  ∃ l : List CmdWord, l.Nodup ∧ (∀ c, c ∈ l ↔ ∃ i, decode c = .ok i) ∧ l.length = 119 ∧
    ∀ i : Instr, (l.filter (fun c => match decode c with
        | .ok j => decide (Certificates.tableRow j = Certificates.tableRow i)
        | .error _ => false)).length =
      match i with
      | .wmul | .wdivrem => 1
      | .rnd _ => 3
      | .cvt _ | .cshl _ | .cshr _ | .clz _ => 6
      | .muldiv _ _ | .mulshr _ _ | .avg _ _ | .log2 _ _ | .log256 _ _ => 18

/-- Words written out in R85 decode to the commands they are written for. -/
def Obligations.WrittenOutWordsDecode : Prop :=
  decode 0x0051#16 = .ok .wmul ∧ decode 0x0052#16 = .ok .wdivrem ∧ decode 0x0153#16 = .ok (.rnd .nearest) ∧
  decode 0x0034#16 = .ok (.cvt .w64) ∧ decode 0x00B5#16 = .ok (.muldiv .w64 .up) ∧
  decode 0x00A6#16 = .ok (.mulshr .w32 .up) ∧ decode 0x0117#16 = .ok (.avg .w16 .nearest) ∧
  decode 0x0008#16 = .ok (.cshl .w8) ∧ decode 0x0059#16 = .ok (.cshr .w256) ∧ decode 0x002A#16 = .ok (.clz .w32) ∧
  decode 0x00DB#16 = .ok (.log2 .w256 .up) ∧ decode 0x013C#16 = .ok (.log256 .w64 .nearest)

-- The step and the host transactions

/-- A step whose transaction is ISSUE of a legal word, on a block that is not halted, is the command's rule on the state
with the transaction taken from the port (R57, R78). -/
def Obligations.StepRunsDecodedCommand : Prop :=
  ∀ (s : State) (c : CmdWord) (rest : List Transaction) (i : Instr),
    s.pending = .issue c :: rest → s.halted = false → decode c = .ok i →
    step s = exec i { s with pending := rest }

/-- R57: ISSUE c is "the same as WR 3, c" for a 16-bit word c. -/
def Obligations.WriteToCmdIsIssue : Prop :=
  ∀ (s : State) (c : CmdWord) (rest : List Transaction), s.pending = .wr 3 (c.setWidth 256) :: rest →
    step s = step { s with pending := .issue c :: rest }

/-- R82 and R205: a word that selects no command raises IllegalCommand and the block halts, whatever A, B and D hold and
whether or not they are poisoned. -/
def Obligations.IllegalWordRaisesIllegalCommand : Prop :=
  ∀ (s : State) (c : CmdWord) (rest : List Transaction),
    s.pending = .issue c :: rest → s.halted = false → (¬ ∃ i, decode c = .ok i) →
    ∃ t, step s = .next t ∧ EndsWithFault { s with pending := rest } t .illegalCommand ∧ t.halted = true

/-- R231: with no host transaction the block waits and starts nothing on its own. -/
def Obligations.IdleBlockChangesNothing : Prop :=
  ∀ s : State, s.pending = [] → step s = .next s

/-- R55: WR to A, B or D gives the register the value, clears its mark and changes nothing else; on a halted block it has no
effect. -/
def Obligations.WriteSetsOneOperandRegister : Prop :=
  ∀ (s : State) (v : Word) (rest : List Transaction),
    (s.pending = .wr 0 v :: rest → s.halted = false →
      step s = .next { s with pending := rest, a := { val := v, poisoned := false } }) ∧
    (s.pending = .wr 1 v :: rest → s.halted = false →
      step s = .next { s with pending := rest, b := { val := v, poisoned := false } }) ∧
    (s.pending = .wr 2 v :: rest → s.halted = false →
      step s = .next { s with pending := rest, d := { val := v, poisoned := false } }) ∧
    (∀ n : RegNum, n.toNat ≤ 2 → s.pending = .wr n v :: rest → s.halted = true →
      step s = .next { s with pending := rest })

/-- R56: RD of a register that is not poisoned returns its content, STATUS zero-extended, and changes nothing of the block,
halted or not. -/
def Obligations.ReadReturnsContentAndChangesNothing : Prop :=
  ∀ (s : State) (rest : List Transaction),
    (s.pending = .rd 0 :: rest → s.a.poisoned = false →
      step s = .next { s with pending := rest, readData := some s.a.val }) ∧
    (s.pending = .rd 1 :: rest → s.b.poisoned = false →
      step s = .next { s with pending := rest, readData := some s.b.val }) ∧
    (s.pending = .rd 2 :: rest → s.d.poisoned = false →
      step s = .next { s with pending := rest, readData := some s.d.val }) ∧
    (s.pending = .rd 4 :: rest → s.r0.poisoned = false →
      step s = .next { s with pending := rest, readData := some s.r0.val }) ∧
    (s.pending = .rd 5 :: rest → s.r1.poisoned = false →
      step s = .next { s with pending := rest, readData := some s.r1.val }) ∧
    (s.pending = .rd 6 :: rest →
      step s = .next { s with pending := rest, readData := some (s.status.setWidth 256) })

/-- R27 and R56: RD of a poisoned register returns some value, of which nothing is said, and changes no register. That the
value is drawn by a counter of the model is the model's choice (log entry 4). -/
def Obligations.ReadOfPoisonedRegisterChangesNoRegister : Prop :=
  ∀ (s : State) (n : RegNum) (r : DataReg) (rest : List Transaction), s.pending = .rd n :: rest →
    (n, r) ∈ [((0 : RegNum), s.a), (1, s.b), (2, s.d), (4, s.r0), (5, s.r1)] → r.poisoned = true →
    ∃ v k, step s = .next { s with pending := rest, readData := some v, draws := k }

/-- What the table of R35 does not allow is refused (U6), also on a halted block. That a WR to CMD of a value of more than
16 bits is refused is the model's choice (log entry 9). -/
def Obligations.TransactionsOutsideTheTableAreRefused : Prop :=
  ∀ (s : State) (n : RegNum) (v : Word) (rest : List Transaction),
    (s.pending = .wr n v :: rest → 4 ≤ n.toNat → step s = .refused .noSuchTransaction) ∧
    (s.pending = .rd n :: rest → n.toNat = 3 ∨ n.toNat = 7 → step s = .refused .noSuchTransaction) ∧
    (s.pending = .wr 3 v :: rest → 2 ^ 16 ≤ v.toNat → step s = .refused .commandTooWide)

/-- R38, R230: RESET poisons the five data registers and clears STATUS, from every state, halted or not. -/
def Obligations.ResetTransactionGivesResetTable : Prop :=
  ∀ (s : State) (rest : List Transaction), s.pending = .reset :: rest →
    ∃ t, step s = .next t ∧ t.a.poisoned = true ∧ t.b.poisoned = true ∧ t.d.poisoned = true ∧
      t.r0.poisoned = true ∧ t.r1.poisoned = true ∧ t.status = 0 ∧ t.halted = false ∧
      t.pending = rest ∧ t.readData = s.readData ∧ t.mulshrBound = s.mulshrBound

/-- R38: the state after reset: STATUS 0 in every field, not halted, every data register poisoned. -/
def Obligations.ResetStateMatchesTable : Prop :=
  ovfOf State.reset.status = false ∧ vldOf State.reset.status = false ∧ fcOf State.reset.status = 0 ∧
  reservedOf State.reset.status = 0 ∧ State.reset.halted = false ∧ State.reset.a.poisoned = true ∧
  State.reset.b.poisoned = true ∧ State.reset.d.poisoned = true ∧ State.reset.r0.poisoned = true ∧
  State.reset.r1.poisoned = true

-- The commands

/-- R102: WMUL leaves the exact 512-bit product in R1 (high limb) and R0 (low limb), OVF = 0, VLD = 1, and keeps the rest. -/
def Obligations.WmulWritesExactProduct : Prop :=
  decode 0x0051#16 = .ok .wmul ∧
  ∀ s : State, s.a.poisoned = false → s.b.poisoned = false →
    ∃ t, exec .wmul s = .next t ∧
      EndsWithTwo s t (s.a.val.toNat * s.b.val.toNat % 2 ^ 256) (s.a.val.toNat * s.b.val.toNat / 2 ^ 256)

/-- R107: WDIVREM divides B·2^256 + A by D: DivideByZero for D = 0, OVF for B ≥ D, and otherwise the quotient in R0 and the
remainder in R1. -/
def Obligations.WdivremDividesOrReports : Prop :=
  decode 0x0052#16 = .ok .wdivrem ∧
  ∀ s : State, s.a.poisoned = false → s.b.poisoned = false → s.d.poisoned = false →
    ∃ t, exec .wdivrem s = .next t ∧
      (if s.d.val.toNat = 0 then EndsWithFault s t .divideByZero
      else if s.d.val.toNat ≤ s.b.val.toNat then EndsWithRange s t
      else EndsWithTwo s t ((s.b.val.toNat * 2 ^ 256 + s.a.val.toNat) / s.d.val.toNat)
        ((s.b.val.toNat * 2 ^ 256 + s.a.val.toNat) % s.d.val.toNat))

/-- R122: RND with B < D adds 1 to A exactly when B ≠ 0 and the mode rounds up (Nearest: 2·B ≥ D), and reports OVF when that
passes MAXC. -/
def Obligations.RndRoundsResult : Prop :=
  ∀ m : RoundingMode, decode (BitVec.ofNat 16 (0x0053 + (rmOf m).toNat * 128)) = .ok (.rnd m) ∧
  ∀ s : State, s.a.poisoned = false → s.b.poisoned = false → s.d.poisoned = false →
    s.b.val.toNat < s.d.val.toNat →
    ∃ t, exec (.rnd m) s = .next t ∧
      (if s.b.val.toNat ≠ 0 ∧ (m = .up ∨ m = .nearest ∧ s.d.val.toNat ≤ 2 * s.b.val.toNat) then
        if s.a.val.toNat = 2 ^ 256 - 1 then EndsWithRange s t else EndsWithValue s t (s.a.val.toNat + 1)
      else EndsWithValue s t s.a.val.toNat)

/-- R130: CVT copies A to R0 when A ≤ MAX(W), and reports OVF otherwise. -/
def Obligations.CvtNarrowsOrReports : Prop :=
  ∀ w : Width, decode (BitVec.ofNat 16 (0x0004 + (wselOf w).toNat * 16)) = .ok (.cvt w) ∧
  ∀ s : State, s.a.poisoned = false →
    ∃ t, exec (.cvt w) s = .next t ∧
      (if s.a.val.toNat ≤ 2 ^ bitWidth w - 1 then EndsWithValue s t s.a.val.toNat else EndsWithRange s t)

/-- R141, R134: MULDIV on the W-bit views: DivideByZero for a zero denominator, and otherwise `rounded(a·b, d, mode)`, or OVF
when that exceeds MAX(W). -/
def Obligations.MuldivIsExactRoundedQuotient : Prop :=
  ∀ (w : Width) (m : RoundingMode),
  decode (BitVec.ofNat 16 (0x0005 + (wselOf w).toNat * 16 + (rmOf m).toNat * 128)) = .ok (.muldiv w m) ∧
  ∀ s : State, s.a.poisoned = false → s.b.poisoned = false → s.d.poisoned = false →
    ∃ t, exec (.muldiv w m) s = .next t ∧
      (if viewNat w s.d.val = 0 then EndsWithFault s t .divideByZero
      else if rounded (viewNat w s.a.val * viewNat w s.b.val) (viewNat w s.d.val) m ≤ 2 ^ bitWidth w - 1 then
        EndsWithValue s t (rounded (viewNat w s.a.val * viewNat w s.b.val) (viewNat w s.d.val) m)
      else EndsWithRange s t)

/-- R150, R151: MULSHR: IllegalShift when all of D is at least MULSHR_BOUND(W), for either admissible bound of R12, and
otherwise `rounded(a·b, 2^D, mode)`, or OVF when that exceeds MAX(W). -/
def Obligations.MulshrIsExactRoundedShift : Prop :=
  ∀ (w : Width) (m : RoundingMode),
  decode (BitVec.ofNat 16 (0x0006 + (wselOf w).toNat * 16 + (rmOf m).toNat * 128)) = .ok (.mulshr w m) ∧
  ∀ s : State, s.a.poisoned = false → s.b.poisoned = false → s.d.poisoned = false →
    ∃ t, exec (.mulshr w m) s = .next t ∧
      (if (if s.mulshrBound = .perWidth then bitWidth w else 256) ≤ s.d.val.toNat then
        EndsWithFault s t .illegalShift
      else if rounded (viewNat w s.a.val * viewNat w s.b.val) (2 ^ s.d.val.toNat) m ≤ 2 ^ bitWidth w - 1 then
        EndsWithValue s t (rounded (viewNat w s.a.val * viewNat w s.b.val) (2 ^ s.d.val.toNat) m)
      else EndsWithRange s t)

/-- R160, R162: AVG is the rounded half of the sum of the W-bit views, and never reports OVF. D may be poisoned. -/
def Obligations.AvgIsRoundedHalfSum : Prop :=
  ∀ (w : Width) (m : RoundingMode),
  decode (BitVec.ofNat 16 (0x0007 + (wselOf w).toNat * 16 + (rmOf m).toNat * 128)) = .ok (.avg w m) ∧
  ∀ s : State, s.a.poisoned = false → s.b.poisoned = false →
    ∃ t, exec (.avg w m) s = .next t ∧
      EndsWithValue s t (rounded (viewNat w s.a.val + viewNat w s.b.val) 2 m)

/-- R172: CSHL gives the W-bit view of A times 2^D when D < W and no set bit is lost, and reports OVF otherwise. -/
def Obligations.CshlShiftsOrReports : Prop :=
  ∀ w : Width, decode (BitVec.ofNat 16 (0x0008 + (wselOf w).toNat * 16)) = .ok (.cshl w) ∧
  ∀ s : State, s.a.poisoned = false → s.d.poisoned = false →
    ∃ t, exec (.cshl w) s = .next t ∧
      (if s.d.val.toNat < bitWidth w ∧ viewNat w s.a.val * 2 ^ s.d.val.toNat < 2 ^ bitWidth w then
        EndsWithValue s t (viewNat w s.a.val * 2 ^ s.d.val.toNat)
      else EndsWithRange s t)

/-- R173: CSHR gives the W-bit view of A divided by 2^D when D < W and nothing remains, and reports OVF otherwise. -/
def Obligations.CshrShiftsOrReports : Prop :=
  ∀ w : Width, decode (BitVec.ofNat 16 (0x0009 + (wselOf w).toNat * 16)) = .ok (.cshr w) ∧
  ∀ s : State, s.a.poisoned = false → s.d.poisoned = false →
    ∃ t, exec (.cshr w) s = .next t ∧
      (if s.d.val.toNat < bitWidth w ∧ viewNat w s.a.val % 2 ^ s.d.val.toNat = 0 then
        EndsWithValue s t (viewNat w s.a.val / 2 ^ s.d.val.toNat)
      else EndsWithRange s t)

/-- R176, R177: CLZ is W for 0 and otherwise W − 1 less the index of the top set bit. -/
def Obligations.ClzCountsLeadingZeros : Prop :=
  ∀ w : Width, decode (BitVec.ofNat 16 (0x000A + (wselOf w).toNat * 16)) = .ok (.clz w) ∧
  ∀ s : State, s.a.poisoned = false →
    ∃ t, exec (.clz w) s = .next t ∧
      EndsWithValue s t
        (if viewNat w s.a.val = 0 then bitWidth w else bitWidth w - 1 - Nat.log 2 (viewNat w s.a.val))

/-- R180, R181: LOG2 is the exact base-2 logarithm of the W-bit view in the mode, 0 for 0. -/
def Obligations.Log2IsExactLogarithm : Prop :=
  ∀ (w : Width) (m : RoundingMode),
  decode (BitVec.ofNat 16 (0x000B + (wselOf w).toNat * 16 + (rmOf m).toNat * 128)) = .ok (.log2 w m) ∧
  ∀ s : State, s.a.poisoned = false →
    ∃ t, exec (.log2 w m) s = .next t ∧ EndsWithValue s t (exactLog 2 (viewNat w s.a.val) m)

/-- R186, R187: LOG256 is the exact base-256 logarithm of the W-bit view in the mode, 0 for 0. -/
def Obligations.Log256IsExactLogarithm : Prop :=
  ∀ (w : Width) (m : RoundingMode),
  decode (BitVec.ofNat 16 (0x000C + (wselOf w).toNat * 16 + (rmOf m).toNat * 128)) = .ok (.log256 w m) ∧
  ∀ s : State, s.a.poisoned = false →
    ∃ t, exec (.log256 w m) s = .next t ∧ EndsWithValue s t (exactLog 256 (viewNat w s.a.val) m)

/-- Where the spec leaves the outcome of a command unspecified, the command still answers a next state, in which A, B and D are
kept (R25), and the reserved bits of STATUS (R33). On a poisoned operand (R27) no result is defined and FC is at most 3 (R28).
RND with B ≥ D (R122) never faults: FC stays (R32), exactly one of OVF and VLD is 1 (R31), R0 is defined exactly with VLD = 1
and R1 is poisoned (R24, R26). That the model runs there is its choice (log entries 1 and 2). What an outcome on a poisoned
operand leaves alone, and the marks on R0 and R1, are log entries 11 and 12; that the general rules on completed commands bind
RND with B ≥ D is log entry 16. -/
def Obligations.UnspecifiedOutcomeKeepsOperands : Prop :=
  ∀ (i : Instr) (s : State), determined i s = false →
    ∃ t, exec i s = .next t ∧ if operandsDefined i s then EndsUnstated s t else EndsUnspecified s t

-- Whole-machine rules

/-- R25: no command writes A, B or D, whatever its operands are and however it ends. -/
def Obligations.NoCommandWritesOperandRegisters : Prop :=
  ∀ (i : Instr) (s t : State), exec i s = .next t → t.a = s.a ∧ t.b = s.b ∧ t.d = s.d

/-- R201: the complete list of faults, for an ISSUE of an illegal word or of a command with defined operands: FC after it is 3 exactly for a word
that selects no command, 1 exactly for WDIVREM with D = 0 and MULDIV with D[W−1:0] = 0, 2 exactly for MULSHR with
D ≥ MULSHR_BOUND(W), and never 4 to 7; A, B and D are left as they were. RND with B ≥ D is among these commands and faults
never (R122, R203, R204); that the model runs it there is its choice (log entry 2). -/
def Obligations.FaultsAreExactlyTheListedOnes : Prop :=
  ∀ (s t : State) (c : CmdWord) (rest : List Transaction), s.pending = .issue c :: rest → s.halted = false →
    (∀ i, decode c = .ok i → operandsDefined i s = true) → step s = .next t →
    (fcOf t.status = 3 ↔ ¬ ∃ i, decode c = .ok i) ∧
    (fcOf t.status = 1 ↔ (decode c = .ok .wdivrem ∧ s.d.val.toNat = 0) ∨
      ∃ w m, decode c = .ok (.muldiv w m) ∧ viewNat w s.d.val = 0) ∧
    (fcOf t.status = 2 ↔ ∃ w m, decode c = .ok (.mulshr w m) ∧
      (if s.mulshrBound = .perWidth then bitWidth w else 256) ≤ s.d.val.toNat) ∧
    (fcOf t.status).toNat ≤ 3 ∧ t.a = s.a ∧ t.b = s.b ∧ t.d = s.d

/-- R31, R32, R200: after a command with defined operands, on a block that was not halted, either FC = 0 and exactly one of OVF
and VLD is 1, or FC ≠ 0 and both are 0 and no result is defined; a result is defined exactly with VLD = 1. That it also holds
of RND with B ≥ D is the model's choice (log entries 2 and 16). -/
def Obligations.RangeViolationsAndFaultsNeverMix : Prop :=
  ∀ (i : Instr) (s t : State), operandsDefined i s = true → s.halted = false → exec i s = .next t →
    (t.halted = false → ovfOf t.status = !vldOf t.status) ∧
    (t.halted = true → ovfOf t.status = false ∧ vldOf t.status = false) ∧
    (t.r0.poisoned = !vldOf t.status) ∧ (t.r1.poisoned = !(vldOf t.status && definesTwo i))

/-- R213: WMUL, AVG, CLZ, LOG2 and LOG256 never set OVF on defined operands, and each other command sets it in some state that
a host can bring about, with the operands written and the block not halted. -/
def Obligations.CommandsThatReportRangeViolations : Prop :=
  (∀ (i : Instr) (s t : State), determined i s = true → exec i s = .next t →
    (i = .wmul ∨ (∃ w m, i = .avg w m) ∨ (∃ w, i = .clz w) ∨ (∃ w m, i = .log2 w m) ∨ ∃ w m, i = .log256 w m) →
    ovfOf t.status = false) ∧
  (∀ i : Instr, (i = .wdivrem ∨ (∃ m, m ≠ .down ∧ i = .rnd m) ∨ (∃ w, w ≠ .w256 ∧ i = .cvt w) ∨
      (∃ w m, i = .muldiv w m) ∨ (∃ w m, i = .mulshr w m) ∨ (∃ w, i = .cshl w) ∨ ∃ w, i = .cshr w) →
    ∃ s t, s.Coherent ∧ s.halted = false ∧ determined i s = true ∧ exec i s = .next t ∧ ovfOf t.status = true)

/-- R23, R34 of the decisions: with VLD = 1 at width W the content of R0 is at most MAX(W), so its upper bits are 0. -/
def Obligations.ResultsFitTheirWidth : Prop :=
  ∀ (i : Instr) (s t : State), determined i s = true → exec i s = .next t → vldOf t.status = true →
    t.r0.val.toNat ≤ 2 ^ bitWidth (commandWidth i) - 1

/-- R40: bits of the operands above W − 1 are ignored, but for all of A under CVT and all of D as a shift amount: two states
with the same view of the operands have the same outcome. -/
def Obligations.UpperOperandBitsAreIgnored : Prop :=
  ∀ (i : Instr) (s s' t t' : State), determined i s = true → determined i s' = true → SameOperandView i s s' →
    fcOf s.status = fcOf s'.status → exec i s = .next t → exec i s' = .next t' → SameOutcome t t'

/-- R20, R133: the outcome of a command depends on A, B, D, the command and the parameter alone: not on R0, R1, OVF or VLD
left by earlier commands, not on the host's side of the port, not on the free values drawn so far. -/
def Obligations.OutcomeDependsOnOperandsAlone : Prop :=
  ∀ (i : Instr) (s s' t t' : State), determined i s = true → s.a = s'.a → s.b = s'.b → s.d = s'.d →
    s.mulshrBound = s'.mulshrBound → fcOf s.status = fcOf s'.status → exec i s = .next t → exec i s' = .next t' →
    SameOutcome t t'

/-- The status words that R28 gives a completed command: 0x0002 valid, 0x0001 range violation, 0x0004 DivideByZero, 0x0008
IllegalShift. That it also holds of RND with B ≥ D is the model's choice (log entries 2 and 16). -/
def Obligations.StatusWordAfterCommand : Prop :=
  ∀ (i : Instr) (s t : State), s.Inv → s.halted = false → operandsDefined i s = true → exec i s = .next t →
    t.status.toNat = if t.halted then (if fcOf t.status = 1 then 0x0004 else 0x0008)
      else if vldOf t.status then 0x0002 else 0x0001

-- Invariants

/-- Every step keeps the invariant: reserved bits of STATUS 0 (R33), FC 0 to 3 (R28), no defined result on a halted block
(R56) or without VLD (R28). The clauses also hold after a command on a poisoned operand and after RND with B ≥ D; what they
say there is the model's choice (log entries 1, 2, 11, 12 and 16). -/
def Obligations.StepKeepsStatusAndPoisonInvariant : Prop :=
  ∀ s t : State, s.Inv → step s = .next t → t.Inv

/-- The state after reset has the invariant (R38). -/
def Obligations.ResetHasStatusAndPoisonInvariant : Prop := State.reset.Inv

/-- A step of a conforming host (R233) keeps the block coherent: STATUS is one of the six words that occur, and VLD = 1 goes
with a defined R0 (R28, R31, R32, R56). -/
def Obligations.ConformingStepKeepsCoherence : Prop :=
  ∀ s t : State, s.Coherent → conformingNext s = true → step s = .next t → t.Coherent

/-- The state after reset is coherent (R38). -/
def Obligations.ResetIsCoherent : Prop := State.reset.Coherent

/-- R233: for a conforming host the block's behaviour is fully determined by the spec up to MULSHR_BOUND: two states that
differ only in what the spec leaves unspecified step to two such states, with the same answers to the host. -/
def Obligations.ConformingHostSeesNoUnspecifiedValue : Prop :=
  ∀ s s' : State, s.Coherent → SameDefined s s' → conformingNext s = true →
    ∃ t t', step s = .next t ∧ step s' = .next t' ∧ SameDefined t t'

/-- R237, R58: every run of transactions that the table of R35 allows completes: each is performed in one step, in order, and
none is left. R237 says so of a command on operands that are not poisoned. That a command on a poisoned operand, RND with
B ≥ D, and RD of a poisoned register complete too is the model's choice (log entries 1, 2 and 4). -/
def Obligations.AllowedTransactionsAllComplete : Prop :=
  ∀ s : State, (∀ x ∈ s.pending, x.allowed = true) →
    ∃ t : State, Sys2Proof.core.run s.pending.length s = .next t ∧ t.pending = []

/-- R207, R208: on a halted block no run of allowed transactions without a RESET changes STATUS or a data register. -/
def Obligations.HaltedBlockIsStuckUntilReset : Prop :=
  ∀ (n : Nat) (s : State), s.halted = true → (∀ x ∈ s.pending, x.allowed = true ∧ x ≠ .reset) →
    ∃ t : State, Sys2Proof.core.run n s = .next t ∧ t.status = s.status ∧ t.a = s.a ∧ t.b = s.b ∧ t.d = s.d ∧
      t.r0 = s.r0 ∧ t.r1 = s.r1

/-- R65: "RESET is the only transaction that clears STATUS.FC": a step from a halted state that leaves a state not halted
performed RESET. -/
def Obligations.OnlyResetClearsFaultCause : Prop :=
  ∀ s t : State, s.halted = true → step s = .next t → fcOf t.status ≠ fcOf s.status →
    s.pending.head? = some .reset

-- Properties of the arithmetic

/-- R103: the multiplier is exact, its diagonals carry at most 2, its final carry is 0, and what (f) and (g) say of it. -/
def Obligations.MultiplierFacts : Prop :=
  (∀ a b : Word, (wmul a b).val = a.toNat * b.toNat) ∧
  (∀ x y : Nat, x < 2 ^ 128 → y < 2 ^ 128 → x * y ≤ 2 ^ 256 - 2 ^ 129 + 1 ∧ halfHi (x * y) ≤ 2 ^ 128 - 2 ∧
    halfLo (x * y) ≤ 2 ^ 128 - 1) ∧
  (∀ p0 p1 p2 : Nat, halfHi p0 ≤ 2 ^ 128 - 2 → diagonal1 p0 p1 p2 ≤ 3 * 2 ^ 128 - 4 ∧
    halfHi (diagonal1 p0 p1 p2) ≤ 2) ∧
  (∀ p1 p2 p3 c1 : Nat, halfHi p1 ≤ 2 ^ 128 - 2 → halfHi p2 ≤ 2 ^ 128 - 2 → c1 ≤ 2 →
    diagonal2 p1 p2 p3 c1 ≤ 3 * 2 ^ 128 - 3 ∧ halfHi (diagonal2 p1 p2 p3 c1) ≤ 2) ∧
  (∀ a b : Word, (productLimbs a b).getLast? = some 0) ∧
  wmul maxC maxC = { hi := BitVec.ofNat 256 (2 ^ 256 - 2), lo := 1 } ∧
  (∀ a b : Word, wmul a b = wmul b a) ∧ (∀ a : Word, wmul a 0 = { hi := 0, lo := 0 }) ∧
  (∀ a : Word, wmul a 1 = { hi := 0, lo := a })

/-- R106 a, c, d: the running remainder never needs more than 257 bits, the divider overflows exactly when the high limb is at
least the divisor, and otherwise N = quotient·d + remainder with remainder < d. -/
def Obligations.DividerFacts : Prop :=
  ∀ (n : Wide) (d : Word), d ≠ 0 →
    (∀ rem i : Nat, rem < d.toNat → shiftInBit n.val rem i ≤ 2 * d.toNat - 1 ∧ shiftInBit n.val rem i < 2 ^ 257) ∧
    (divRem n d = .overflow ↔ d.toNat ≤ n.hi.toNat) ∧
    (n.hi.toNat < d.toNat → ∃ q r, divRem n d = .value (q, r) ∧ n.val = q.toNat * d.toNat + r.toNat ∧
      r.toNat < d.toNat)

/-- R143: where the fast path of `mul_div` is taken, the wide path gives the same overflow and the same result. -/
def Obligations.FastAndWidePathAgree : Prop :=
  ∀ (a b d : Word) (m : RoundingMode), d ≠ 0 → a.toNat ≤ 2 ^ 128 - 1 → b.toNat ≤ 2 ^ 128 - 1 →
    mulDivFast a b d m = mulDivWide a b d m

/-- R110: WMUL of a ≠ 0 and b, its result limbs copied to A and B and a written to D, then WDIVREM: R0 = b, R1 = 0, OVF = 0,
VLD = 1. The host's copying is the hypothesis on the second state. -/
def Obligations.MultiplyThenDivideRoundTrip : Prop :=
  ∀ s t s' : State, s.a.poisoned = false → s.b.poisoned = false → s.a.val ≠ 0 → exec .wmul s = .next t →
    s'.a = t.r0 → s'.b = t.r1 → s'.d = s.a →
    ∃ t', exec .wdivrem s' = .next t' ∧ EndsWithTwo s' t' s.b.val.toNat 0

/-- R174: a checked left shift that succeeds is undone by the checked right shift, and the converse. -/
def Obligations.CheckedShiftsRoundTrip : Prop :=
  ∀ (w : Width) (s t s' : State), s.a.poisoned = false → s.d.poisoned = false → vldOf t.status = true →
    s'.a = t.r0 → s'.d = s.d →
    (exec (.cshl w) s = .next t →
      ∃ t', exec (.cshr w) s' = .next t' ∧ EndsWithValue s' t' (viewNat w s.a.val)) ∧
    (exec (.cshr w) s = .next t →
      ∃ t', exec (.cshl w) s' = .next t' ∧ EndsWithValue s' t' (viewNat w s.a.val))

/-- R126: MULDIV's results are ordered Down ≤ Nearest ≤ Up with Up − Down at most 1 when none of the three overflows, and the
three modes have the same outcome when d divides a·b. -/
def Obligations.MuldivModesAreOrdered : Prop :=
  ∀ (w : Width) (s td tn tu : State), s.a.poisoned = false → s.b.poisoned = false → s.d.poisoned = false →
    viewNat w s.d.val ≠ 0 → exec (.muldiv w .down) s = .next td → exec (.muldiv w .nearest) s = .next tn →
    exec (.muldiv w .up) s = .next tu →
    (vldOf td.status = true → vldOf tn.status = true → vldOf tu.status = true →
      td.r0.val.toNat ≤ tn.r0.val.toNat ∧ tn.r0.val.toNat ≤ tu.r0.val.toNat ∧
        tu.r0.val.toNat ≤ td.r0.val.toNat + 1) ∧
    (viewNat w s.d.val ∣ viewNat w s.a.val * viewNat w s.b.val → SameOutcome td tn ∧ SameOutcome tn tu)

/-- R162 a, d: AVG gives the same outcome for exchanged operands, and Nearest and Up agree. -/
def Obligations.AvgIsSymmetricAndNearestIsUp : Prop :=
  ∀ (w : Width) (s s' : State), s.a.poisoned = false → s.b.poisoned = false → s'.a = s.b → s'.b = s.a →
    fcOf s.status = fcOf s'.status →
    (∀ (m : RoundingMode) (t t' : State), exec (.avg w m) s = .next t → exec (.avg w m) s' = .next t' →
      SameOutcome t t') ∧
    (∀ t t' : State, exec (.avg w .nearest) s = .next t → exec (.avg w .up) s = .next t' → SameOutcome t t')

/-- R183, R187 e: for the value MAX(W), LOG2 is W − 1 under Down and W under Up and Nearest, and LOG256 is W/8 − 1 under Down
and W/8 under Up. -/
def Obligations.LogarithmsOfTheMaximumValue : Prop :=
  ∀ (w : Width) (s : State), s.a.poisoned = false → viewNat w s.a.val = 2 ^ bitWidth w - 1 →
    (∃ t, exec (.log2 w .down) s = .next t ∧ EndsWithValue s t (bitWidth w - 1)) ∧
    (∃ t, exec (.log2 w .up) s = .next t ∧ EndsWithValue s t (bitWidth w)) ∧
    (∃ t, exec (.log2 w .nearest) s = .next t ∧ EndsWithValue s t (bitWidth w)) ∧
    (∃ t, exec (.log256 w .down) s = .next t ∧ EndsWithValue s t (bitWidth w / 8 - 1)) ∧
    (∃ t, exec (.log256 w .up) s = .next t ∧ EndsWithValue s t (bitWidth w / 8))
end

