-- ==== Sys2Proof/Laws/Flags.lean ====
section
/-! SUPPORT. Each field of a packed STATUS word, and of each write of STATUS. -/

namespace Sys2Proof.Machine

@[simp] theorem ovfOf_packStatus (r : BitVec 11) (f : BitVec 3) (v o : Bool) : ovfOf (packStatus r f v o) = o := by
  unfold ovfOf packStatus
  simp only [BitVec.getLsbD_append]
  simp

@[simp] theorem vldOf_packStatus (r : BitVec 11) (f : BitVec 3) (v o : Bool) : vldOf (packStatus r f v o) = v := by
  unfold vldOf packStatus
  simp only [BitVec.getLsbD_append]
  simp

@[simp] theorem fcOf_packStatus (r : BitVec 11) (f : BitVec 3) (v o : Bool) : fcOf (packStatus r f v o) = f := by
  apply BitVec.eq_of_getLsbD_eq
  intro i hi
  unfold fcOf packStatus
  simp only [BitVec.getLsbD_extractLsb', BitVec.getLsbD_append, hi, show ¬ (2 + i < 1) by omega,
    show ¬ (2 + i - 1 < 1) by omega, show 2 + i - 1 - 1 = i by omega, decide_true, Bool.true_and, if_true, if_false]

@[simp] theorem reservedOf_packStatus (r : BitVec 11) (f : BitVec 3) (v o : Bool) :
    reservedOf (packStatus r f v o) = r := by
  apply BitVec.eq_of_getLsbD_eq
  intro i hi
  unfold reservedOf packStatus
  simp only [BitVec.getLsbD_extractLsb', BitVec.getLsbD_append, hi, show ¬ (5 + i < 1) by omega,
    show ¬ (5 + i - 1 < 1) by omega, show ¬ (5 + i - 1 - 1 < 3) by omega, show 5 + i - 1 - 1 - 3 = i by omega,
    decide_true, Bool.true_and, if_false]

/-- A STATUS word is made of its four fields (R28). -/
theorem packStatus_fields (st : StatusWord) : packStatus (reservedOf st) (fcOf st) (vldOf st) (ovfOf st) = st := by
  apply BitVec.eq_of_getLsbD_eq
  intro i hi
  simp only [packStatus, reservedOf, fcOf, vldOf, ovfOf, BitVec.getLsbD_append, BitVec.getLsbD_extractLsb',
    BitVec.getLsbD_ofBool]
  by_cases h0 : i < 1
  · simp [show i = 0 by omega]
  · by_cases h1 : i - 1 < 1
    · simp [show i = 1 by omega]
    · by_cases h2 : i - 1 - 1 < 3
      · simp [h0, h1, h2, show 2 + (i - 1 - 1) = i by omega]
      · simp [h0, h1, h2, show 5 + (i - 1 - 1 - 3) = i by omega, show i - 1 - 1 - 3 < 11 by omega]

/-- Two STATUS words with equal fields are equal. -/
theorem status_ext {x y : StatusWord} (hr : reservedOf x = reservedOf y) (hf : fcOf x = fcOf y)
    (hv : vldOf x = vldOf y) (ho : ovfOf x = ovfOf y) : x = y := by
  rw [← packStatus_fields x, ← packStatus_fields y, hr, hf, hv, ho]

@[simp] theorem ovfOf_setOutcome (st : StatusWord) (o v : Bool) : ovfOf (setOutcome st o v) = o := by simp [setOutcome]
@[simp] theorem vldOf_setOutcome (st : StatusWord) (o v : Bool) : vldOf (setOutcome st o v) = v := by simp [setOutcome]
@[simp] theorem fcOf_setOutcome (st : StatusWord) (o v : Bool) : fcOf (setOutcome st o v) = fcOf st := by
  simp [setOutcome]
@[simp] theorem reservedOf_setOutcome (st : StatusWord) (o v : Bool) :
    reservedOf (setOutcome st o v) = reservedOf st := by simp [setOutcome]

@[simp] theorem ovfOf_setFault (st : StatusWord) (c : Cause) : ovfOf (setFault st c) = false := by simp [setFault]
@[simp] theorem vldOf_setFault (st : StatusWord) (c : Cause) : vldOf (setFault st c) = false := by simp [setFault]
@[simp] theorem fcOf_setFault (st : StatusWord) (c : Cause) : fcOf (setFault st c) = causeCode c := by simp [setFault]
@[simp] theorem reservedOf_setFault (st : StatusWord) (c : Cause) : reservedOf (setFault st c) = reservedOf st := by
  simp [setFault]

@[simp] theorem reservedOf_setUnspecified (st : StatusWord) (n : Nat) :
    reservedOf (setUnspecified st n) = reservedOf st := by simp [setUnspecified]

/-- FC of an unspecified outcome is still 0 to 3 (R28, U9). -/
theorem fcOf_setUnspecified_le (st : StatusWord) (n : Nat) : (fcOf (setUnspecified st n)).toNat ≤ 3 := by
  have := (Config.freeFc n).isLt
  simp only [setUnspecified, fcOf_packStatus, BitVec.toNat_setWidth]
  omega

/-- No cause code is 0, so a fault halts (R32, R39). -/
theorem causeCode_ne_zero (c : Cause) : causeCode c ≠ 0 := by cases c <;> decide

/-- The cause codes are 1 to 3 (R28). -/
theorem causeCode_le (c : Cause) : (causeCode c).toNat ≤ 3 := by cases c <;> decide

end Sys2Proof.Machine
end

