-- ==== Sys2Proof/Laws/State.lean ====
section
/-! SUPPORT. One lemma per field per update of the state, each by rfl. -/

namespace Sys2Proof.Machine

@[simp] theorem setR0_a (v : Word) (s : State) : (setR0 v s).a = s.a := rfl
@[simp] theorem setR0_b (v : Word) (s : State) : (setR0 v s).b = s.b := rfl
@[simp] theorem setR0_d (v : Word) (s : State) : (setR0 v s).d = s.d := rfl
@[simp] theorem setR0_r0 (v : Word) (s : State) : (setR0 v s).r0 = { val := v, poisoned := false } := rfl
@[simp] theorem setR0_r1 (v : Word) (s : State) : (setR0 v s).r1 = s.r1 := rfl
@[simp] theorem setR0_status (v : Word) (s : State) : (setR0 v s).status = s.status := rfl
@[simp] theorem setR0_pending (v : Word) (s : State) : (setR0 v s).pending = s.pending := rfl
@[simp] theorem setR0_readData (v : Word) (s : State) : (setR0 v s).readData = s.readData := rfl
@[simp] theorem setR0_draws (v : Word) (s : State) : (setR0 v s).draws = s.draws := rfl
@[simp] theorem setR0_mulshrBound (v : Word) (s : State) : (setR0 v s).mulshrBound = s.mulshrBound := rfl

@[simp] theorem setR1_a (v : Word) (s : State) : (setR1 v s).a = s.a := rfl
@[simp] theorem setR1_b (v : Word) (s : State) : (setR1 v s).b = s.b := rfl
@[simp] theorem setR1_d (v : Word) (s : State) : (setR1 v s).d = s.d := rfl
@[simp] theorem setR1_r0 (v : Word) (s : State) : (setR1 v s).r0 = s.r0 := rfl
@[simp] theorem setR1_r1 (v : Word) (s : State) : (setR1 v s).r1 = { val := v, poisoned := false } := rfl
@[simp] theorem setR1_status (v : Word) (s : State) : (setR1 v s).status = s.status := rfl
@[simp] theorem setR1_pending (v : Word) (s : State) : (setR1 v s).pending = s.pending := rfl
@[simp] theorem setR1_readData (v : Word) (s : State) : (setR1 v s).readData = s.readData := rfl
@[simp] theorem setR1_draws (v : Word) (s : State) : (setR1 v s).draws = s.draws := rfl
@[simp] theorem setR1_mulshrBound (v : Word) (s : State) : (setR1 v s).mulshrBound = s.mulshrBound := rfl

@[simp] theorem poisonR0_a (s : State) : (poisonR0 s).a = s.a := rfl
@[simp] theorem poisonR0_b (s : State) : (poisonR0 s).b = s.b := rfl
@[simp] theorem poisonR0_d (s : State) : (poisonR0 s).d = s.d := rfl
@[simp] theorem poisonR0_r0 (s : State) : (poisonR0 s).r0 = { val := Config.freeWord s.draws, poisoned := true } := rfl
@[simp] theorem poisonR0_r1 (s : State) : (poisonR0 s).r1 = s.r1 := rfl
@[simp] theorem poisonR0_status (s : State) : (poisonR0 s).status = s.status := rfl
@[simp] theorem poisonR0_pending (s : State) : (poisonR0 s).pending = s.pending := rfl
@[simp] theorem poisonR0_readData (s : State) : (poisonR0 s).readData = s.readData := rfl
@[simp] theorem poisonR0_draws (s : State) : (poisonR0 s).draws = s.draws + 1 := rfl
@[simp] theorem poisonR0_mulshrBound (s : State) : (poisonR0 s).mulshrBound = s.mulshrBound := rfl

@[simp] theorem poisonR1_a (s : State) : (poisonR1 s).a = s.a := rfl
@[simp] theorem poisonR1_b (s : State) : (poisonR1 s).b = s.b := rfl
@[simp] theorem poisonR1_d (s : State) : (poisonR1 s).d = s.d := rfl
@[simp] theorem poisonR1_r0 (s : State) : (poisonR1 s).r0 = s.r0 := rfl
@[simp] theorem poisonR1_r1 (s : State) : (poisonR1 s).r1 = { val := Config.freeWord s.draws, poisoned := true } := rfl
@[simp] theorem poisonR1_status (s : State) : (poisonR1 s).status = s.status := rfl
@[simp] theorem poisonR1_pending (s : State) : (poisonR1 s).pending = s.pending := rfl
@[simp] theorem poisonR1_readData (s : State) : (poisonR1 s).readData = s.readData := rfl
@[simp] theorem poisonR1_draws (s : State) : (poisonR1 s).draws = s.draws + 1 := rfl
@[simp] theorem poisonR1_mulshrBound (s : State) : (poisonR1 s).mulshrBound = s.mulshrBound := rfl

@[simp] theorem writeOutcome_a (o v : Bool) (s : State) : (writeOutcome o v s).a = s.a := rfl
@[simp] theorem writeOutcome_b (o v : Bool) (s : State) : (writeOutcome o v s).b = s.b := rfl
@[simp] theorem writeOutcome_d (o v : Bool) (s : State) : (writeOutcome o v s).d = s.d := rfl
@[simp] theorem writeOutcome_r0 (o v : Bool) (s : State) : (writeOutcome o v s).r0 = s.r0 := rfl
@[simp] theorem writeOutcome_r1 (o v : Bool) (s : State) : (writeOutcome o v s).r1 = s.r1 := rfl
@[simp] theorem writeOutcome_status (o v : Bool) (s : State) : (writeOutcome o v s).status = setOutcome s.status o v := rfl
@[simp] theorem writeOutcome_pending (o v : Bool) (s : State) : (writeOutcome o v s).pending = s.pending := rfl
@[simp] theorem writeOutcome_readData (o v : Bool) (s : State) : (writeOutcome o v s).readData = s.readData := rfl
@[simp] theorem writeOutcome_draws (o v : Bool) (s : State) : (writeOutcome o v s).draws = s.draws := rfl
@[simp] theorem writeOutcome_mulshrBound (o v : Bool) (s : State) : (writeOutcome o v s).mulshrBound = s.mulshrBound := rfl

@[simp] theorem takeTransaction_a (l : List Transaction) (s : State) : (takeTransaction l s).a = s.a := rfl
@[simp] theorem takeTransaction_b (l : List Transaction) (s : State) : (takeTransaction l s).b = s.b := rfl
@[simp] theorem takeTransaction_d (l : List Transaction) (s : State) : (takeTransaction l s).d = s.d := rfl
@[simp] theorem takeTransaction_r0 (l : List Transaction) (s : State) : (takeTransaction l s).r0 = s.r0 := rfl
@[simp] theorem takeTransaction_r1 (l : List Transaction) (s : State) : (takeTransaction l s).r1 = s.r1 := rfl
@[simp] theorem takeTransaction_status (l : List Transaction) (s : State) : (takeTransaction l s).status = s.status := rfl
@[simp] theorem takeTransaction_pending (l : List Transaction) (s : State) : (takeTransaction l s).pending = l := rfl
@[simp] theorem takeTransaction_readData (l : List Transaction) (s : State) : (takeTransaction l s).readData = s.readData := rfl
@[simp] theorem takeTransaction_draws (l : List Transaction) (s : State) : (takeTransaction l s).draws = s.draws := rfl
@[simp] theorem takeTransaction_mulshrBound (l : List Transaction) (s : State) : (takeTransaction l s).mulshrBound = s.mulshrBound := rfl

@[simp] theorem placeCommand_a (c : CmdWord) (s : State) : (placeCommand c s).a = s.a := rfl
@[simp] theorem placeCommand_b (c : CmdWord) (s : State) : (placeCommand c s).b = s.b := rfl
@[simp] theorem placeCommand_d (c : CmdWord) (s : State) : (placeCommand c s).d = s.d := rfl
@[simp] theorem placeCommand_r0 (c : CmdWord) (s : State) : (placeCommand c s).r0 = s.r0 := rfl
@[simp] theorem placeCommand_r1 (c : CmdWord) (s : State) : (placeCommand c s).r1 = s.r1 := rfl
@[simp] theorem placeCommand_status (c : CmdWord) (s : State) : (placeCommand c s).status = s.status := rfl
@[simp] theorem placeCommand_pending (c : CmdWord) (s : State) : (placeCommand c s).pending = .issue c :: s.pending := rfl
@[simp] theorem placeCommand_readData (c : CmdWord) (s : State) : (placeCommand c s).readData = s.readData := rfl
@[simp] theorem placeCommand_draws (c : CmdWord) (s : State) : (placeCommand c s).draws = s.draws := rfl
@[simp] theorem placeCommand_mulshrBound (c : CmdWord) (s : State) : (placeCommand c s).mulshrBound = s.mulshrBound := rfl

@[simp] theorem answer_a (v : Word) (s : State) : (answer v s).a = s.a := rfl
@[simp] theorem answer_b (v : Word) (s : State) : (answer v s).b = s.b := rfl
@[simp] theorem answer_d (v : Word) (s : State) : (answer v s).d = s.d := rfl
@[simp] theorem answer_r0 (v : Word) (s : State) : (answer v s).r0 = s.r0 := rfl
@[simp] theorem answer_r1 (v : Word) (s : State) : (answer v s).r1 = s.r1 := rfl
@[simp] theorem answer_status (v : Word) (s : State) : (answer v s).status = s.status := rfl
@[simp] theorem answer_pending (v : Word) (s : State) : (answer v s).pending = s.pending := rfl
@[simp] theorem answer_readData (v : Word) (s : State) : (answer v s).readData = some v := rfl
@[simp] theorem answer_draws (v : Word) (s : State) : (answer v s).draws = s.draws := rfl
@[simp] theorem answer_mulshrBound (v : Word) (s : State) : (answer v s).mulshrBound = s.mulshrBound := rfl

@[simp] theorem resetBlock_a (s : State) : (resetBlock s).a = .afterReset := rfl
@[simp] theorem resetBlock_b (s : State) : (resetBlock s).b = .afterReset := rfl
@[simp] theorem resetBlock_d (s : State) : (resetBlock s).d = .afterReset := rfl
@[simp] theorem resetBlock_r0 (s : State) : (resetBlock s).r0 = .afterReset := rfl
@[simp] theorem resetBlock_r1 (s : State) : (resetBlock s).r1 = .afterReset := rfl
@[simp] theorem resetBlock_status (s : State) : (resetBlock s).status = 0 := rfl
@[simp] theorem resetBlock_pending (s : State) : (resetBlock s).pending = s.pending := rfl
@[simp] theorem resetBlock_readData (s : State) : (resetBlock s).readData = s.readData := rfl
@[simp] theorem resetBlock_draws (s : State) : (resetBlock s).draws = s.draws := rfl
@[simp] theorem resetBlock_mulshrBound (s : State) : (resetBlock s).mulshrBound = s.mulshrBound := rfl

@[simp] theorem takeFault_a (c : Cause) (s : State) : (takeFault c s).a = s.a := rfl
@[simp] theorem takeFault_b (c : Cause) (s : State) : (takeFault c s).b = s.b := rfl
@[simp] theorem takeFault_d (c : Cause) (s : State) : (takeFault c s).d = s.d := rfl
@[simp] theorem takeFault_r0 (c : Cause) (s : State) : (takeFault c s).r0 = (poisonResults s).r0 := rfl
@[simp] theorem takeFault_r1 (c : Cause) (s : State) : (takeFault c s).r1 = (poisonResults s).r1 := rfl
@[simp] theorem takeFault_status (c : Cause) (s : State) : (takeFault c s).status = setFault s.status c := rfl
@[simp] theorem takeFault_pending (c : Cause) (s : State) : (takeFault c s).pending = s.pending := rfl
@[simp] theorem takeFault_readData (c : Cause) (s : State) : (takeFault c s).readData = s.readData := rfl
@[simp] theorem takeFault_draws (c : Cause) (s : State) : (takeFault c s).draws = s.draws + 2 := rfl
@[simp] theorem takeFault_mulshrBound (c : Cause) (s : State) : (takeFault c s).mulshrBound = s.mulshrBound := rfl

@[simp] theorem unspecifiedOutcome_a (s : State) : (unspecifiedOutcome s).a = s.a := rfl
@[simp] theorem unspecifiedOutcome_b (s : State) : (unspecifiedOutcome s).b = s.b := rfl
@[simp] theorem unspecifiedOutcome_d (s : State) : (unspecifiedOutcome s).d = s.d := rfl
@[simp] theorem unspecifiedOutcome_r0 (s : State) : (unspecifiedOutcome s).r0 = (poisonResults s).r0 := rfl
@[simp] theorem unspecifiedOutcome_r1 (s : State) : (unspecifiedOutcome s).r1 = (poisonResults s).r1 := rfl
@[simp] theorem unspecifiedOutcome_status (s : State) : (unspecifiedOutcome s).status = setUnspecified s.status s.draws := rfl
@[simp] theorem unspecifiedOutcome_pending (s : State) : (unspecifiedOutcome s).pending = s.pending := rfl
@[simp] theorem unspecifiedOutcome_readData (s : State) : (unspecifiedOutcome s).readData = s.readData := rfl
@[simp] theorem unspecifiedOutcome_draws (s : State) : (unspecifiedOutcome s).draws = s.draws + 2 := rfl
@[simp] theorem unspecifiedOutcome_mulshrBound (s : State) : (unspecifiedOutcome s).mulshrBound = s.mulshrBound := rfl

@[simp] theorem poisonResults_a (s : State) : (poisonResults s).a = s.a := rfl
@[simp] theorem poisonResults_b (s : State) : (poisonResults s).b = s.b := rfl
@[simp] theorem poisonResults_d (s : State) : (poisonResults s).d = s.d := rfl
@[simp] theorem poisonResults_r0 (s : State) : (poisonResults s).r0 = { val := Config.freeWord s.draws, poisoned := true } := rfl
@[simp] theorem poisonResults_r1 (s : State) : (poisonResults s).r1 = { val := Config.freeWord (s.draws + 1), poisoned := true } := rfl
@[simp] theorem poisonResults_status (s : State) : (poisonResults s).status = s.status := rfl
@[simp] theorem poisonResults_pending (s : State) : (poisonResults s).pending = s.pending := rfl
@[simp] theorem poisonResults_readData (s : State) : (poisonResults s).readData = s.readData := rfl
@[simp] theorem poisonResults_draws (s : State) : (poisonResults s).draws = s.draws + 2 := rfl
@[simp] theorem poisonResults_mulshrBound (s : State) : (poisonResults s).mulshrBound = s.mulshrBound := rfl

@[simp] theorem written_val (v : Word) : (written v).val = v := rfl
@[simp] theorem written_poisoned (v : Word) : (written v).poisoned = false := rfl
@[simp] theorem afterReset_poisoned : DataReg.afterReset.poisoned = true := rfl

end Sys2Proof.Machine
end

