-- ==== Sys2Proof/Laws/Ops.lean ====
section
/-! SUPPORT. For each shared operation over the state, what it does, said once in the terms of Safety.lean. -/

namespace Sys2Proof.Machine

/-- `Kept` as a conjunction of its fields. -/
theorem kept_iff {s t : State} : Kept s t ↔ t.a = s.a ∧ t.b = s.b ∧ t.d = s.d ∧
    reservedOf t.status = reservedOf s.status ∧ t.pending = s.pending ∧ t.readData = s.readData ∧
    t.mulshrBound = s.mulshrBound :=
  ⟨fun h => ⟨h.a, h.b, h.d, h.reserved, h.pending, h.readData, h.mulshrBound⟩,
    fun ⟨a, b, d, r, p, q, m⟩ => ⟨a, b, d, r, p, q, m⟩⟩

/-- `reportRange` reports a range violation and keeps the rest (R30, R212). -/
theorem reportRange_ends (s : State) : EndsWithRange s (reportRange s) := by
  constructor <;> simp [reportRange, kept_iff]

/-- `completeOne` ends the command with its one result (R24, R31). -/
theorem completeOne_ends (v : Word) (s : State) : EndsWithValue s (completeOne v s) v.toNat := by
  constructor <;> simp [completeOne, kept_iff]

/-- `completeTwo` ends the command with its two results (R24, R31). -/
theorem completeTwo_ends (v u : Word) (s : State) : EndsWithTwo s (completeTwo v u s) v.toNat u.toNat := by
  constructor <;> simp [completeTwo, kept_iff]

/-- `takeFault` is the fault entry (R206). -/
theorem takeFault_ends (c : Cause) (s : State) : EndsWithFault s (takeFault c s) c := by
  constructor <;> simp [kept_iff]

/-- After a fault entry the block is halted (R39, R206). -/
theorem takeFault_halted (c : Cause) (s : State) : (takeFault c s).halted = true := by
  simpa [State.halted] using causeCode_ne_zero c

/-- `completeUnstated` is a range violation or one result, and which of them is not known (R30, R31, R122). -/
theorem completeUnstated_cases (s : State) : EndsWithRange s (completeUnstated s) ∨
    ∃ v : Word, EndsWithValue s (completeUnstated s) v.toNat := by
  rw [completeUnstated]
  cases Config.freeFlag s.draws
  · exact .inr ⟨Config.freeWord s.draws, by constructor <;> simp [finishOne, completeOne, kept_iff]⟩
  · exact .inl (by constructor <;> simp [finishOne, reportRange, kept_iff])

/-- `completeUnstated` ends a command that raises no fault (R31, R32, R122). -/
theorem completeUnstated_ends (s : State) : EndsUnstated s (completeUnstated s) := by
  rcases completeUnstated_cases s with h | ⟨_, h⟩
  · exact ⟨h.r0.trans h.ovf.symm, h.r1, by rw [h.vld, h.ovf]; rfl, h.fc, h.kept⟩
  · exact ⟨h.r0Defined.trans h.ovf.symm, h.r1, by rw [h.vld, h.ovf]; rfl, h.fc, h.kept⟩

/-- `unspecifiedOutcome` keeps what R25, R28 and R33 say of every command, and leaves no result defined. -/
theorem unspecifiedOutcome_ends (s : State) : EndsUnspecified s (unspecifiedOutcome s) := by
  constructor <;> simp [kept_iff, fcOf_setUnspecified_le]

/-- `resetBlock` leaves what the table of R38 says, and the host's own fields. -/
theorem resetBlock_eq (s : State) :
    resetBlock s = { s with
      a := .afterReset, b := .afterReset, d := .afterReset, r0 := .afterReset, r1 := .afterReset, status := 0 } := rfl

@[simp] theorem finishOne_raise (c : Cause) (s : State) : finishOne (.raise c) s = takeFault c s := rfl
@[simp] theorem finishOne_overflow (s : State) : finishOne .overflow s = reportRange s := rfl
@[simp] theorem finishOne_value (v : Word) (s : State) : finishOne (.value v) s = completeOne v s := rfl
@[simp] theorem finishTwo_raise (c : Cause) (s : State) : finishTwo (.raise c) s = takeFault c s := rfl
@[simp] theorem finishTwo_overflow (s : State) : finishTwo .overflow s = reportRange s := rfl
@[simp] theorem finishTwo_value (v u : Word) (s : State) : finishTwo (.value (v, u)) s = completeTwo v u s := rfl

/-- The three ends of a command with one result. -/
theorem finishOne_cases (r : KernelResult Word) (s : State) :
    (∃ c, r = .raise c ∧ EndsWithFault s (finishOne r s) c) ∨ (r = .overflow ∧ EndsWithRange s (finishOne r s)) ∨
      (∃ v, r = .value v ∧ EndsWithValue s (finishOne r s) v.toNat) := by
  rcases r with c | _ | v
  · exact .inl ⟨c, rfl, takeFault_ends c s⟩
  · exact .inr (.inl ⟨rfl, reportRange_ends s⟩)
  · exact .inr (.inr ⟨v, rfl, completeOne_ends v s⟩)

/-- The three ends of a command with two results. -/
theorem finishTwo_cases (r : KernelResult (Word × Word)) (s : State) :
    (∃ c, r = .raise c ∧ EndsWithFault s (finishTwo r s) c) ∨ (r = .overflow ∧ EndsWithRange s (finishTwo r s)) ∨
      (∃ v u, r = .value (v, u) ∧ EndsWithTwo s (finishTwo r s) v.toNat u.toNat) := by
  rcases r with c | _ | ⟨v, u⟩
  · exact .inl ⟨c, rfl, takeFault_ends c s⟩
  · exact .inr (.inl ⟨rfl, reportRange_ends s⟩)
  · exact .inr (.inr ⟨v, u, rfl, completeTwo_ends v u s⟩)

/-- A command whose operands hold defined values is its own meaning (R27). -/
theorem withOperands_defined {rs : List DataReg} {s own : State} (h : ∀ r ∈ rs, r.poisoned = false) :
    withOperands rs s own = own := by
  have : rs.any (fun r => r.poisoned) = false := by
    simpa [List.any_eq_false] using h
  simp [withOperands, this]

/-- A command that reads a poisoned operand has the unspecified outcome (R27). -/
theorem withOperands_poisoned {rs : List DataReg} {s own : State} (h : ∃ r ∈ rs, r.poisoned = true) :
    withOperands rs s own = unspecifiedOutcome s := by
  have : rs.any (fun r => r.poisoned) = true := by
    simpa [List.any_eq_true] using h
  simp [withOperands, this]

end Sys2Proof.Machine
end

