-- ==== Sys2Proof/Laws/Exec.lean ====
section
/-! SUPPORT. What a command can do, said once for all of them. -/

namespace Sys2Proof.Machine

/-- How a command ends: unspecified on a poisoned operand (R27), without fault but with an unstated result outside its
precondition (R122), and otherwise with a fault, a range violation, one result or two. -/
inductive Ending (i : Instr) (s : State) : State → Prop where
  | unspecified (h : operandsDefined i s = false) : Ending i s (unspecifiedOutcome s)
  | unstated (h : operandsDefined i s = true) (hp : preconditionMet i s = false) (hi : definesTwo i = false) :
      Ending i s (completeUnstated s)
  | fault (h : determined i s = true) (c : Cause) : Ending i s (takeFault c s)
  | range (h : determined i s = true) : Ending i s (reportRange s)
  | one (h : determined i s = true) (hi : definesTwo i = false) (v : Word) : Ending i s (completeOne v s)
  | two (h : determined i s = true) (hi : definesTwo i = true) (v u : Word) : Ending i s (completeTwo v u s)

/-- A command on operands that are not all defined has the unspecified outcome. -/
theorem Ending.of_poisoned {i : Instr} {s own : State} {rs : List DataReg} (h : operandsDefined i s = false)
    (hp : ∃ r ∈ rs, r.poisoned = true) : Ending i s (withOperands rs s own) := by
  rw [withOperands_poisoned hp]
  exact .unspecified h

/-- The end of a one-result command. -/
theorem Ending.of_finishOne {i : Instr} {s : State} (h : determined i s = true) (hi : definesTwo i = false)
    (r : KernelResult Word) : Ending i s (finishOne r s) := by
  rcases r with c | _ | v
  · exact .fault h c
  · exact .range h
  · exact .one h hi v

/-- The end of a two-result command. -/
theorem Ending.of_finishTwo {i : Instr} {s : State} (h : determined i s = true) (hi : definesTwo i = true)
    (r : KernelResult (Word × Word)) : Ending i s (finishTwo r s) := by
  rcases r with c | _ | ⟨v, u⟩
  · exact .fault h c
  · exact .range h
  · exact .two h hi v u

/-- The read of the operands: a list of registers whose marks decide whether the operands are defined. -/
theorem Ending.of_operands {i : Instr} {s own : State} {rs : List DataReg}
    (hop : operandsDefined i s = rs.all (fun r => !r.poisoned))
    (hown : operandsDefined i s = true → Ending i s own) : Ending i s (withOperands rs s own) := by
  cases hd : operandsDefined i s
  · apply Ending.of_poisoned
    · exact hd
    · rw [hop] at hd
      simpa using hd
  · rw [withOperands_defined]
    · exact hown hd
    · rw [hop] at hd
      simpa using hd

/-- Every command answers a next state, one of the endings above (R237). -/
theorem exec_ending (i : Instr) (s : State) : ∃ t, exec i s = .next t ∧ Ending i s t := by
  cases i <;> refine ⟨_, rfl, Ending.of_operands (by simp [operandsDefined, Bool.and_assoc]) fun hd => ?_⟩
  case rnd m =>
    by_cases hlt : s.b.val < s.d.val
    · have hn : s.b.val.toNat < s.d.val.toNat := hlt
      rw [if_pos hlt]
      exact .of_finishOne (by simp [determined, hd, preconditionMet, hn]) rfl _
    · have hn : ¬ s.b.val.toNat < s.d.val.toNat := hlt
      rw [if_neg hlt]
      exact .unstated hd (by simp [preconditionMet, hn]) rfl
  case wmul => exact .of_finishTwo (by simp [determined, hd, preconditionMet]) rfl _
  case wdivrem => exact .of_finishTwo (by simp [determined, hd, preconditionMet]) rfl _
  all_goals exact .of_finishOne (by simp [determined, hd, preconditionMet]) rfl _

/-- The endings of a command that answered `t`. -/
theorem ending_of_exec {i : Instr} {s t : State} (h : exec i s = .next t) : Ending i s t := by
  obtain ⟨t', ht, he⟩ := exec_ending i s
  rw [ht] at h
  cases h
  exact he

end Sys2Proof.Machine
end

