-- ==== Sys2Proof/Laws/Operands.lean ====
section
/-! SUPPORT. The widths, the W-bit view and the other operand forms, in natural numbers. -/

namespace Sys2Proof.Machine

/-- Every width is at most C (R10, R11). -/
theorem bitWidth_le (w : Width) : bitWidth w ≤ 256 := by cases w <;> decide

/-- Every width is positive (R11). -/
theorem bitWidth_pos (w : Width) : 0 < bitWidth w := by cases w <;> decide

theorem two_pow_bitWidth_le (w : Width) : 2 ^ bitWidth w ≤ 2 ^ 256 :=
  Nat.pow_le_pow_right (by decide) (bitWidth_le w)

/-- The W-bit view is the content modulo 2^W (R15, R40). -/
theorem view_toNat (w : Width) (v : Word) : (view w v).toNat = viewNat w v := by
  have h := Nat.mod_lt v.toNat (Nat.two_pow_pos (bitWidth w))
  have := two_pow_bitWidth_le w
  simp only [view, viewNat, BitVec.toNat_setWidth]
  exact Nat.mod_eq_of_lt (by omega)

/-- A view is below 2^W (R40). -/
theorem viewNat_lt (w : Width) (v : Word) : viewNat w v < 2 ^ bitWidth w := Nat.mod_lt _ (Nat.two_pow_pos _)

/-- A view is at most MAX(W) (R11, R40). -/
theorem viewNat_le_maxValue (w : Width) (v : Word) : viewNat w v ≤ maxValue w := by
  have := viewNat_lt w v
  simp only [maxValue]
  omega

/-- At W = 256 the view is the whole register (R40). -/
theorem viewNat_w256 (v : Word) : viewNat .w256 v = v.toNat := Nat.mod_eq_of_lt v.isLt

/-- MAX(W) fits C bits (R11). -/
theorem maxValue_lt (w : Width) : maxValue w < 2 ^ 256 := by
  have := two_pow_bitWidth_le w
  have := Nat.two_pow_pos (bitWidth w)
  simp only [maxValue]
  omega

theorem maxC_toNat : maxC.toNat = 2 ^ 256 - 1 := by decide

/-- Both admissible bounds are at most 256 (R12). -/
theorem shiftLimit_le (b : ShiftBound) (w : Width) : shiftLimit b w ≤ 256 := by
  cases b
  · exact Nat.le_refl _
  · exact bitWidth_le w

/-- Both admissible bounds are positive, so a shift by 0 is always legal (R12, R150). -/
theorem shiftLimit_pos (b : ShiftBound) (w : Width) : 0 < shiftLimit b w := by
  cases b
  · exact Nat.two_pow_pos 8
  · exact bitWidth_pos w

end Sys2Proof.Machine
end

