-- ==== Sys2Proof/Laws/PerInstr.lean ====
section
/-! SUPPORT. Statements about every command, one lemma per constructor: the encoder's fields are legal (R76). -/

namespace Sys2Proof.Laws

/-- The fields the encoder writes pass every check of R76 and R81. -/
def EncodesLegally.Statement (i : Instr) : Prop := (encodeFields i).wellFormed = true

theorem EncodesLegally.wmul : EncodesLegally.Statement .wmul := by rfl
theorem EncodesLegally.wdivrem : EncodesLegally.Statement .wdivrem := by rfl
theorem EncodesLegally.rnd (m : RoundingMode) : EncodesLegally.Statement (.rnd m) := by cases m <;> rfl
theorem EncodesLegally.cvt (w : Width) : EncodesLegally.Statement (.cvt w) := by cases w <;> rfl
theorem EncodesLegally.muldiv (w : Width) (m : RoundingMode) : EncodesLegally.Statement (.muldiv w m) := by
  cases w <;> cases m <;> rfl
theorem EncodesLegally.mulshr (w : Width) (m : RoundingMode) : EncodesLegally.Statement (.mulshr w m) := by
  cases w <;> cases m <;> rfl
theorem EncodesLegally.avg (w : Width) (m : RoundingMode) : EncodesLegally.Statement (.avg w m) := by
  cases w <;> cases m <;> rfl
theorem EncodesLegally.cshl (w : Width) : EncodesLegally.Statement (.cshl w) := by cases w <;> rfl
theorem EncodesLegally.cshr (w : Width) : EncodesLegally.Statement (.cshr w) := by cases w <;> rfl
theorem EncodesLegally.clz (w : Width) : EncodesLegally.Statement (.clz w) := by cases w <;> rfl
theorem EncodesLegally.log2 (w : Width) (m : RoundingMode) : EncodesLegally.Statement (.log2 w m) := by
  cases w <;> cases m <;> rfl
theorem EncodesLegally.log256 (w : Width) (m : RoundingMode) : EncodesLegally.Statement (.log256 w m) := by
  cases w <;> cases m <;> rfl

end Sys2Proof.Laws
end

