-- ==== Sys2Proof/Laws/Wide.lean ====
section
/-! SUPPORT. The multiplier is exact (R103 a) and the divider is quotient and remainder (R106 c, d). -/

namespace Sys2Proof.Machine

theorem halfLo_lt (p : Nat) : halfLo p < 2 ^ 128 := Nat.mod_lt _ (by decide)

/-- The two halves make the number. -/
theorem half_split (p : Nat) : halfHi p * 2 ^ 128 + halfLo p = p := by
  simp only [halfHi, halfLo]
  omega

theorem halfHi_lt (v : Word) : halfHi v.toNat < 2 ^ 128 := by
  have := v.isLt
  simp only [halfHi]
  omega

/-- The four limbs and the final carry add up to the combined partial products (R101). -/
theorem combineProducts_sum (p0 p1 p2 p3 : Nat) :
    ∃ l0 l1 l2 l3 c, combineProducts p0 p1 p2 p3 = [l0, l1, l2, l3, c] ∧
      l0 < 2 ^ 128 ∧ l1 < 2 ^ 128 ∧ l2 < 2 ^ 128 ∧ l3 < 2 ^ 128 ∧
      c * 2 ^ 512 + l3 * 2 ^ 384 + l2 * 2 ^ 256 + l1 * 2 ^ 128 + l0 = p0 + (p1 + p2) * 2 ^ 128 + p3 * 2 ^ 256 := by
  refine ⟨_, _, _, _, _, rfl, halfLo_lt _, halfLo_lt _, halfLo_lt _, halfLo_lt _, ?_⟩
  have h0 := half_split p0
  have h1 := half_split p1
  have h2 := half_split p2
  have h3 := half_split p3
  have hs1 := half_split (diagonal1 p0 p1 p2)
  have hs2 := half_split (diagonal2 p1 p2 p3 (halfHi (diagonal1 p0 p1 p2)))
  have hs3 := half_split (diagonal3 p3 (halfHi (diagonal2 p1 p2 p3 (halfHi (diagonal1 p0 p1 p2)))))
  revert hs3 hs2 hs1 h3 h2 h1 h0
  generalize halfHi (diagonal3 p3 (halfHi (diagonal2 p1 p2 p3 (halfHi (diagonal1 p0 p1 p2))))) = c3
  generalize halfLo (diagonal3 p3 (halfHi (diagonal2 p1 p2 p3 (halfHi (diagonal1 p0 p1 p2))))) = l3
  simp only [diagonal3]
  generalize halfHi (diagonal2 p1 p2 p3 (halfHi (diagonal1 p0 p1 p2))) = c2
  generalize halfLo (diagonal2 p1 p2 p3 (halfHi (diagonal1 p0 p1 p2))) = l2
  simp only [diagonal2]
  generalize halfHi (diagonal1 p0 p1 p2) = c1
  generalize halfLo (diagonal1 p0 p1 p2) = l1
  simp only [diagonal1]
  intros
  omega

/-- The partial products of R101 add up to the product. -/
theorem partialProducts_sum (x y : Nat) :
    halfLo x * halfLo y + (halfLo x * halfHi y + halfHi x * halfLo y) * 2 ^ 128 + halfHi x * halfHi y * 2 ^ 256 =
      x * y := by
  have hx := half_split x
  have hy := half_split y
  generalize halfLo x = xl at *
  generalize halfHi x = xh at *
  generalize halfLo y = yl at *
  generalize halfHi y = yh at *
  rw [← hx, ← hy]
  ring

/-- The product of two 256-bit values is below 2^512 (R103 e). -/
theorem product_lt (a b : Word) : a.toNat * b.toNat < 2 ^ 512 :=
  calc a.toNat * b.toNat < 2 ^ 256 * 2 ^ 256 := Nat.mul_lt_mul'' a.isLt b.isLt
    _ = 2 ^ 512 := (Nat.pow_add 2 256 256).symm

/-- `wmul` is exact: `val(wmul(a, b)) = a·b` (R103 a). -/
theorem wmul_val (a b : Word) : (wmul a b).val = a.toNat * b.toNat := by
  obtain ⟨l0, l1, l2, l3, c, he, h0, h1, h2, h3, hsum⟩ := combineProducts_sum
    (halfLo a.toNat * halfLo b.toNat) (halfLo a.toNat * halfHi b.toNat)
    (halfHi a.toNat * halfLo b.toNat) (halfHi a.toNat * halfHi b.toNat)
  rw [partialProducts_sum] at hsum
  have hlt := product_lt a b
  have hlimbs : productLimbs a b = [l0, l1, l2, l3, c] := he
  simp only [wmul, hlimbs, Wide.val, joinLimbs, BitVec.toNat_ofNat]
  omega

/-- The high limb of the product (R103 a). -/
theorem wmul_hi (a b : Word) : (wmul a b).hi.toNat = a.toNat * b.toNat / 2 ^ 256 := by
  have h := wmul_val a b
  have := (wmul a b).lo.isLt
  simp only [Wide.val] at h
  omega

/-- The low limb of the product (R103 a). -/
theorem wmul_lo (a b : Word) : (wmul a b).lo.toNat = a.toNat * b.toNat % 2 ^ 256 := by
  have h := wmul_val a b
  have := (wmul a b).lo.isLt
  simp only [Wide.val] at h
  omega

/-- A WideUint is below 2^512 (R100). -/
theorem wide_val_lt (n : Wide) : n.val < 2 ^ 512 := by
  have := n.hi.isLt
  have := n.lo.isLt
  simp only [Wide.val]
  omega

/-- The high limb of a WideUint is its value divided by 2^256 (R100). -/
theorem wide_hi (n : Wide) : n.hi.toNat = n.val / 2 ^ 256 := by
  have := n.lo.isLt
  simp only [Wide.val]
  omega

/-- Shifting in bit i of n extends the prefix of n above i by that bit (R105). -/
theorem shiftInBit_eq (n rem i : Nat) : shiftInBit n rem i = 2 * rem + n / 2 ^ i % 2 := by
  have hb : (n.testBit i).toNat = n / 2 ^ i % 2 := by
    rw [Nat.testBit_eq_decide_div_mod_eq]
    rcases Nat.mod_two_eq_zero_or_one (n / 2 ^ i) with h | h <;> simp [h]
  have hlt : n / 2 ^ i % 2 < 2 ^ 1 := by omega
  have := Nat.two_pow_add_eq_or_of_lt hlt rem
  simp only [shiftInBit, hb, Nat.shiftLeft_eq]
  rw [Nat.mul_comm rem (2 ^ 1), ← this]

/-- Setting bit i of a number whose low i+1 bits are 0 adds 2^i. -/
theorem set_low_bit (k i : Nat) : (2 ^ (i + 1) * k) ||| 1 <<< i = 2 ^ (i + 1) * k + 2 ^ i := by
  rw [Nat.one_shiftLeft]
  exact (Nat.two_pow_add_eq_or_of_lt (Nat.pow_lt_pow_right (by decide) (Nat.lt_succ_self i)) k).symm

/-- The loop invariant of R106 (a), (b): with the prefix of n above position i divided, and no quotient bit at 256 or
above, the loop finds the quotient and the remainder unless the quotient needs more than 256 bits. -/
theorem divLoop_spec (n d : Nat) (hd : 0 < d) : ∀ (i rem k : Nat), rem < d → n / 2 ^ i = k * d + rem →
    (256 ≤ i → k = 0) → k * 2 ^ i < 2 ^ 256 →
    divLoop n d i rem (2 ^ i * k) = if n / d < 2 ^ 256 then some (n / d, n % d) else none := by
  intro i
  induction i with
  | zero =>
    intro rem k hrem heq _ hk
    have hn : n = k * d + rem := by simpa using heq
    have hq : n / d = k := by
      rw [hn, Nat.add_comm, Nat.add_mul_div_right _ _ hd, Nat.div_eq_of_lt hrem, Nat.zero_add]
    have hr : n % d = rem := by
      rw [hn, Nat.add_comm, Nat.add_mul_mod_self_right, Nat.mod_eq_of_lt hrem]
    simp only [divLoop, hq, hr]
    rw [if_pos (by simpa using hk)]
    simp
  | succ i ih =>
    intro rem k hrem heq hhigh hk
    have hpre : n / 2 ^ i = 2 * (n / 2 ^ (i + 1)) + n / 2 ^ i % 2 := by
      rw [Nat.pow_succ, ← Nat.div_div_eq_div_mul]
      omega
    have hpre2 : n / 2 ^ i = 2 * k * d + shiftInBit n rem i := by
      rw [shiftInBit_eq]
      calc n / 2 ^ i = 2 * (k * d + rem) + n / 2 ^ i % 2 := by rw [← heq]; exact hpre
        _ = 2 * k * d + (2 * rem + n / 2 ^ i % 2) := by ring
    have hbound : shiftInBit n rem i < 2 * d := by
      rw [shiftInBit_eq]
      omega
    simp only [divLoop]
    split
    · rename_i hge
      have hpre3 : n / 2 ^ i = (2 * k + 1) * d + (shiftInBit n rem i - d) := by
        have : (2 * k + 1) * d = 2 * k * d + d := by ring
        omega
      split
      · rename_i hi
        have hbig : ¬ n / d < 2 ^ 256 := by
          have h1 : d ≤ n / 2 ^ i := by
            rw [hpre2]
            omega
          have h2 : 2 ^ i * d ≤ n := by
            have := Nat.mul_le_of_le_div _ _ _ h1
            rwa [Nat.mul_comm] at this
          have h3 : 2 ^ i ≤ n / d := (Nat.le_div_iff_mul_le hd).2 h2
          have h4 : 2 ^ 256 ≤ 2 ^ i := Nat.pow_le_pow_right (by decide) hi
          omega
        rw [if_neg hbig]
      · rename_i hi
        have hset : 2 ^ (i + 1) * k ||| 1 <<< i = 2 ^ i * (2 * k + 1) := by
          rw [set_low_bit]
          ring
        rw [hset]
        refine ih _ _ (by omega) hpre3 (fun h => absurd h hi) ?_
        rcases Nat.lt_or_ge i 255 with h | h
        · have hk' : k * 2 ^ (i + 1) < 2 ^ 256 := hk
          have : k * 2 ^ (i + 1) + 2 ^ i < 2 ^ 256 := by
            have hdvd : 2 ^ (i + 1) ∣ 2 ^ 256 := Nat.pow_dvd_pow 2 (by omega)
            obtain ⟨m, hm⟩ := hdvd
            rw [hm] at hk' ⊢
            have hkm : k < m := by
              rw [Nat.mul_comm] at hk'
              exact Nat.lt_of_mul_lt_mul_left hk'
            have : 2 ^ (i + 1) * (k + 1) ≤ 2 ^ (i + 1) * m := Nat.mul_le_mul_left _ hkm
            have h5 : 2 ^ i < 2 ^ (i + 1) := Nat.pow_lt_pow_right (by decide) (Nat.lt_succ_self i)
            calc k * 2 ^ (i + 1) + 2 ^ i < k * 2 ^ (i + 1) + 2 ^ (i + 1) := by omega
              _ = 2 ^ (i + 1) * (k + 1) := by ring
              _ ≤ 2 ^ (i + 1) * m := this
          calc (2 * k + 1) * 2 ^ i = k * 2 ^ (i + 1) + 2 ^ i := by ring
            _ < 2 ^ 256 := this
        · have hi' : i = 255 := by omega
          subst hi'
          have hk0 : k = 0 := hhigh (by decide)
          subst hk0
          decide
    · rename_i hlt
      have hq : 2 ^ (i + 1) * k = 2 ^ i * (2 * k) := by ring
      rw [hq]
      refine ih _ _ (by omega) hpre2 (fun h => ?_) ?_
      · have := hhigh (by omega)
        omega
      · calc 2 * k * 2 ^ i = k * 2 ^ (i + 1) := by ring
          _ < 2 ^ 256 := hk

/-- `div_rem` is quotient and remainder, with overflow when the quotient needs more than 256 bits (R106 c, d, R108). -/
theorem divRem_spec (n : Wide) (d : Word) :
    divRem n d = if d = 0 then .raise .divideByZero
      else if n.val / d.toNat < 2 ^ 256 then
        .value (BitVec.ofNat 256 (n.val / d.toNat), BitVec.ofNat 256 (n.val % d.toNat))
      else .overflow := by
  by_cases h0 : d = 0
  · simp [divRem, h0]
  · have hd : 0 < d.toNat := Nat.pos_of_ne_zero (fun h => h0 (BitVec.eq_of_toNat_eq (by simpa using h)))
    have hz : n.val / 2 ^ 512 = 0 * d.toNat + 0 := by
      rw [Nat.div_eq_of_lt (wide_val_lt n), Nat.zero_mul]
    have h := divLoop_spec n.val d.toNat hd 512 0 0 hd hz (fun _ => rfl) (by rw [Nat.zero_mul]; exact Nat.two_pow_pos 256)
    simp only [Nat.mul_zero] at h
    by_cases hq : n.val / d.toNat < 2 ^ 256
    · simp only [divRem, h0, if_false, h, hq, if_true]
    · simp only [divRem, h0, if_false, h, hq]

/-- The quotient needs more than 256 bits exactly when the divisor is at most the high limb (R106 c). -/
theorem quotient_fits_iff (n : Wide) (d : Word) (h0 : d ≠ 0) :
    n.val / d.toNat < 2 ^ 256 ↔ n.hi.toNat < d.toNat := by
  have hd : 0 < d.toNat := Nat.pos_of_ne_zero (fun h => h0 (BitVec.eq_of_toNat_eq (by simpa using h)))
  rw [Nat.div_lt_iff_lt_mul hd, wide_hi, Nat.div_lt_iff_lt_mul (Nat.two_pow_pos 256), Nat.mul_comm]

end Sys2Proof.Machine
end

