-- ==== Sys2Proof/Laws/Rounding.lean ====
section
/-! SUPPORT. The rounding comparator is exact rounding (R124), and so are MULDIV, MULSHR and AVG (R134, R143, R153, R162). -/

namespace Sys2Proof.Machine

/-- A non-zero register content is a positive number. -/
theorem toNat_pos {d : Word} (h : d ≠ 0) : 0 < d.toNat :=
  Nat.pos_of_ne_zero (fun h0 => h (BitVec.eq_of_toNat_eq (by simpa using h0)))

/-- The subtraction of the comparator cannot underflow, and its test is `2·remainder ≥ denominator` (R121 a, b). -/
theorem nearest_test (d r : Word) (h : r.toNat < d.toNat) : (d - r ≤ r) ↔ d.toNat ≤ 2 * r.toNat := by
  have hd := d.isLt
  rw [BitVec.le_def, BitVec.toNat_sub]
  have : (2 ^ 256 - r.toNat + d.toNat) % 2 ^ 256 = d.toNat - r.toNat := by omega
  rw [this]
  omega

/-- The floor and the rounded value of R124 differ by at most one, and are equal when nothing remains. -/
theorem rounded_floor (n d : Nat) (m : RoundingMode) :
    rounded n d m = n / d ∨ (rounded n d m = n / d + 1 ∧ n % d ≠ 0) := by
  cases m <;> simp only [rounded]
  · exact .inl trivial
  · split
    · exact .inr ⟨rfl, by assumption⟩
    · exact .inl rfl
  · split
    · rename_i h
      exact .inr ⟨rfl, h.2⟩
    · exact .inl rfl

/-- `exactUpTo MAXC` of a register content and of its successor. -/
theorem exactUpTo_maxC (n : Nat) (h : n < 2 ^ 256) : exactUpTo (2 ^ 256 - 1) n = .value (BitVec.ofNat 256 n) :=
  if_pos (Nat.le_sub_one_of_lt h)

/-- `round` on a quotient and remainder is exact rounding, with overflow past MAXC (R124). -/
theorem roundPolicy_spec (n : Nat) (q d r : Word) (m : RoundingMode) (h : r.toNat < d.toNat)
    (hq : n / d.toNat = q.toNat) (hr : n % d.toNat = r.toNat) :
    roundPolicy q d r m = exactUpTo (2 ^ 256 - 1) (rounded n d.toNat m) := by
  have hql := q.isLt
  have hself : BitVec.ofNat 256 q.toNat = q := BitVec.eq_of_toNat_eq (by simp)
  by_cases h0 : r = 0
  · have hr0 : n % d.toNat = 0 := by rw [hr, h0]; rfl
    have hf : rounded n d.toNat m = q.toNat := by
      rcases rounded_floor n d.toNat m with h1 | h1
      · rw [h1, hq]
      · exact absurd hr0 h1.2
    rw [hf, exactUpTo_maxC _ hql, hself]
    simp [roundPolicy, h0]
  · have hrn : r.toNat ≠ 0 := fun h1 => h0 (BitVec.eq_of_toNat_eq (by simpa using h1))
    have hup : rounded n d.toNat m = q.toNat + if roundsUp d r m = true then 1 else 0 := by
      cases m <;> simp [rounded, roundsUp, hq, hr, hrn, nearest_test d r h]
    rw [hup]
    by_cases hru : roundsUp d r m = true
    · by_cases hmax : q = maxC
      · have hx : ¬ (q.toNat + 1 ≤ 2 ^ 256 - 1) := by
          rw [hmax, maxC_toNat]
          decide
        simp only [roundPolicy, h0, hru, hmax, if_true, if_false]
        rw [← hmax]
        exact (if_neg hx).symm
      · have hlt : q.toNat + 1 < 2 ^ 256 := by
          have : q.toNat ≠ 2 ^ 256 - 1 := fun h1 => hmax (BitVec.eq_of_toNat_eq (by rw [h1, maxC_toNat]))
          omega
        simp only [roundPolicy, h0, hru, hmax, if_true, if_false]
        rw [exactUpTo_maxC _ hlt]
        congr 1
    · simp only [roundPolicy, h0, hru, if_false]
      rw [exactUpTo_maxC _ (by simpa using hql)]
      simp

/-- `narrow` behind an exact result no smaller than the width allows (R131, R134). -/
theorem thenNarrow_exact (w : Width) (n : Nat) :
    thenNarrow w (exactUpTo (2 ^ 256 - 1) n) = exactUpTo (maxValue w) n := by
  have hw := maxValue_lt w
  by_cases h : n ≤ 2 ^ 256 - 1
  · have hn : n < 2 ^ 256 := by omega
    simp only [exactUpTo, h, if_true, thenNarrow, narrow, BitVec.toNat_ofNat, Nat.mod_eq_of_lt hn]
    by_cases hm : n ≤ maxValue w
    · rw [if_neg (by omega), if_pos hm]
    · rw [if_pos (by omega), if_neg hm]
  · have hm : ¬ n ≤ maxValue w := by omega
    rw [exactUpTo, exactUpTo, if_neg h, if_neg hm]
    rfl

/-- The wide path of `mul_div` is exact rounding for every pair of operands (R143). -/
theorem mulDivWide_spec (a b d : Word) (m : RoundingMode) (h : d ≠ 0) :
    mulDivWide a b d m = exactUpTo (2 ^ 256 - 1) (rounded (a.toNat * b.toNat) d.toNat m) := by
  have hd := toNat_pos h
  have hdl := d.isLt
  have hval := wmul_val a b
  simp only [mulDivWide, divRem_spec, h, if_false, hval]
  by_cases hq : a.toNat * b.toNat / d.toNat < 2 ^ 256
  · have hm := Nat.mod_lt (a.toNat * b.toNat) hd
    simp only [hq, if_true]
    refine roundPolicy_spec _ _ _ _ _ ?_ ?_ ?_
    · rw [BitVec.toNat_ofNat, Nat.mod_eq_of_lt (hm.trans hdl)]
      exact hm
    · rw [BitVec.toNat_ofNat, Nat.mod_eq_of_lt hq]
    · rw [BitVec.toNat_ofNat, Nat.mod_eq_of_lt (hm.trans hdl)]
  · simp only [hq, if_false]
    have : ¬ rounded (a.toNat * b.toNat) d.toNat m ≤ 2 ^ 256 - 1 := by
      rcases rounded_floor (a.toNat * b.toNat) d.toNat m with h1 | ⟨h1, -⟩ <;> omega
    exact (if_neg this).symm

/-- The fast path of `mul_div` is exact rounding where it is taken (R142). -/
theorem mulDivFast_spec (a b d : Word) (m : RoundingMode) (h : d ≠ 0) (ha : a.toNat ≤ maxH) (hb : b.toNat ≤ maxH) :
    mulDivFast a b d m = exactUpTo (2 ^ 256 - 1) (rounded (a.toNat * b.toNat) d.toNat m) := by
  have hd := toNat_pos h
  have hp : a.toNat * b.toNat < 2 ^ 256 := by
    have := Nat.mul_le_mul ha hb
    have hmax : maxH * maxH < 2 ^ 256 := by decide
    omega
  have hab : (a * b).toNat = a.toNat * b.toNat := by
    rw [BitVec.toNat_mul, Nat.mod_eq_of_lt hp]
  refine roundPolicy_spec _ _ _ _ _ ?_ ?_ ?_
  · rw [BitVec.toNat_umod]
    exact Nat.mod_lt _ hd
  · rw [BitVec.toNat_udiv, hab]
  · rw [BitVec.toNat_umod, hab]

/-- `mul_div` for a non-zero denominator (R143): overflow iff the rounded quotient exceeds MAXC. -/
theorem mulDiv_spec (a b d : Word) (m : RoundingMode) (h : d ≠ 0) :
    mulDiv a b d m = exactUpTo (2 ^ 256 - 1) (rounded (a.toNat * b.toNat) d.toNat m) := by
  by_cases hf : a.toNat ≤ maxH ∧ b.toNat ≤ maxH
  · simp only [mulDiv, h, if_false, hf, and_self, if_true]
    exact mulDivFast_spec a b d m h hf.1 hf.2
  · simp only [mulDiv, h, if_false, hf]
    exact mulDivWide_spec a b d m h

/-- `mul_div` by zero (R144). -/
theorem mulDiv_zero (a b : Word) (m : RoundingMode) : mulDiv a b 0 m = .raise .divideByZero := by
  simp [mulDiv]

/-- Nothing rounds for the denominator 1 (R124). -/
theorem rounded_one (n : Nat) (m : RoundingMode) : rounded n 1 m = n := by
  cases m <;> simp [rounded, Nat.mod_one]

/-- `mul_shr` for a shift below 256 is exact rounding of the division by 2^s (R152, R153). -/
theorem mulShr_spec (a b : Word) (s : Nat) (m : RoundingMode) (hs : s < 256) :
    mulShr a b s m = exactUpTo (2 ^ 256 - 1) (rounded (a.toNat * b.toNat) (2 ^ s) m) := by
  by_cases h0 : s = 0
  · subst h0
    have hhi := wmul_hi a b
    have hlo := wmul_lo a b
    simp only [mulShr, if_true, mulExact, Nat.pow_zero, rounded_one]
    by_cases hfit : a.toNat * b.toNat < 2 ^ 256
    · have hz : (wmul a b).hi = 0 := BitVec.eq_of_toNat_eq (by rw [hhi, Nat.div_eq_of_lt hfit]; rfl)
      have hl : (wmul a b).lo = BitVec.ofNat 256 (a.toNat * b.toNat) :=
        BitVec.eq_of_toNat_eq (by rw [hlo, BitVec.toNat_ofNat])
      rw [exactUpTo_maxC _ hfit, if_neg (not_not_intro hz), hl]
    · have hnz : (wmul a b).hi ≠ 0 := by
        intro h
        rw [h] at hhi
        rw [show BitVec.toNat (0 : Word) = 0 from rfl] at hhi
        omega
      have hbig : ¬ a.toNat * b.toNat ≤ 2 ^ 256 - 1 := by omega
      simp only [exactUpTo, hnz, hbig, ne_eq, not_false_eq_true, if_true, if_false]
  · have htp : (BitVec.twoPow 256 s).toNat = 2 ^ s := by
      rw [BitVec.toNat_twoPow, Nat.mod_eq_of_lt (Nat.pow_lt_pow_right (by decide) hs)]
    have hne : BitVec.twoPow 256 s ≠ 0 := by
      intro h
      rw [h] at htp
      have := Nat.two_pow_pos s
      have h2 : (0 : Nat) = 2 ^ s := htp
      omega
    simp only [mulShr, h0, if_false]
    rw [mulDiv_spec _ _ _ _ hne, htp]

/-- MULSHR's kernel behind its guard (R150). -/
theorem mulShrGuarded_spec (bound : ShiftBound) (w : Width) (a b : Word) (s : Nat) (m : RoundingMode) :
    mulShrGuarded bound w a b s m = if shiftLimit bound w ≤ s then .raise .illegalShift
      else exactUpTo (2 ^ 256 - 1) (rounded (a.toNat * b.toNat) (2 ^ s) m) := by
  have := shiftLimit_le bound w
  by_cases h : shiftLimit bound w ≤ s
  · simp [mulShrGuarded, h]
  · simp only [mulShrGuarded, h, if_false]
    exact mulShr_spec a b s m (by omega)

/-- Rounding the half of a difference and adding it to the smaller number rounds the half of the sum (R162 c). -/
theorem rounded_average (x y : Nat) (m : RoundingMode) (h : x ≤ y) :
    x + rounded ((y - x) * 1) 2 m = rounded (x + y) 2 m := by
  cases m <;> simp only [rounded, Nat.mul_one]
  · omega
  · have : (y - x) % 2 = (x + y) % 2 := by omega
    rw [this]
    split <;> omega
  · have : (y - x) % 2 = (x + y) % 2 := by omega
    rw [this]
    split <;> omega

/-- The rounded average lies between its operands (R162 b). -/
theorem rounded_average_le (x y : Nat) (m : RoundingMode) (h : x ≤ y) : rounded (x + y) 2 m ≤ y ∨ x = y := by
  rcases rounded_floor (x + y) 2 m with h1 | ⟨h1, h2⟩ <;> omega

/-- The halving of AVG, for an ordered pair of different operands (R161, R162). -/
theorem addHalf_spec (x y : Word) (m : RoundingMode) (h : x < y) :
    addHalf x (mulDiv (y - x) 1 2 m) = .value (BitVec.ofNat 256 (rounded (x.toNat + y.toNat) 2 m)) := by
  have hlt : x.toNat < y.toNat := h
  have hy := y.isLt
  have hsub : (y - x).toNat = y.toNat - x.toNat := by
    rw [BitVec.toNat_sub]
    omega
  have hle : rounded ((y.toNat - x.toNat) * 1) 2 m ≤ 2 ^ 256 - 1 := by
    have := rounded_average x.toNat y.toNat m (by omega)
    have := rounded_average_le x.toNat y.toNat m (by omega)
    omega
  rw [mulDiv_spec _ _ _ _ (by decide), hsub, show BitVec.toNat (1 : Word) = 1 from rfl,
    show BitVec.toNat (2 : Word) = 2 from rfl, exactUpTo, if_pos hle]
  simp only [addHalf]
  congr 1
  apply BitVec.eq_of_toNat_eq
  rw [BitVec.toNat_add, BitVec.toNat_ofNat, BitVec.toNat_ofNat, ← rounded_average x.toNat y.toNat m (by omega)]
  omega

/-- `average` is the rounded half of the sum and always a value (R162). -/
theorem average_spec (a b : Word) (m : RoundingMode) :
    average a b m = .value (BitVec.ofNat 256 (rounded (a.toNat + b.toNat) 2 m)) := by
  by_cases he : a = b
  · subst he
    have : rounded (a.toNat + a.toNat) 2 m = a.toNat := by
      rcases rounded_floor (a.toNat + a.toNat) 2 m with h1 | ⟨h1, h2⟩ <;> omega
    simp [average, this]
  · by_cases hlt : a < b
    · simp only [average, he, if_false, hlt, if_true]
      exact addHalf_spec a b m hlt
    · have hgt : b < a := by
        have h1 : a.toNat ≠ b.toNat := fun h => he (BitVec.eq_of_toNat_eq h)
        have h2 : ¬ a.toNat < b.toNat := hlt
        show b.toNat < a.toNat
        omega
      simp only [average, he, if_false, hlt]
      rw [addHalf_spec b a m hgt, Nat.add_comm]

/-- The rounded average of two W-bit views fits W bits (R162 b). -/
theorem rounded_average_lt {x y l : Nat} (m : RoundingMode) (hx : x < l) (hy : y < l) : rounded (x + y) 2 m < l := by
  rcases rounded_floor (x + y) 2 m with h1 | ⟨h1, h2⟩ <;> omega

end Sys2Proof.Machine
end

