-- ==== Sys2Proof/Laws/ShiftLog.lean ====
section
/-! SUPPORT. The checked shifts lose no bit (R172, R173), the counter finds the leading zeros (R177), the logarithms are
exact (R181, R187). -/

namespace Sys2Proof.Machine

theorem shrW_toNat (v : Word) (s : Nat) : (shrW v s).toNat = v.toNat / 2 ^ s := by
  simp [shrW, Nat.shiftRight_eq_div_pow]

theorem shlW_toNat (w : Width) (v : Word) (s : Nat) : (shlW w v s).toNat = v.toNat * 2 ^ s % 2 ^ bitWidth w := by
  rw [shlW, view_toNat, viewNat, BitVec.toNat_shiftLeft, Nat.shiftLeft_eq,
    Nat.mod_mod_of_dvd _ (Nat.pow_dvd_pow 2 (bitWidth_le w))]

/-- The left shift comes back to the value exactly when nothing was lost (R172). -/
theorem shl_comes_back {v w s : Nat} (hs : s ≤ w) : v * 2 ^ s % 2 ^ w / 2 ^ s = v ↔ v * 2 ^ s < 2 ^ w := by
  have hp := Nat.two_pow_pos s
  have hsplit : (2 : Nat) ^ w = 2 ^ (w - s) * 2 ^ s := by rw [← Nat.pow_add]; congr 1; omega
  rw [hsplit, Nat.mul_mod_mul_right, Nat.mul_div_cancel _ hp, Nat.mul_lt_mul_right hp]
  constructor
  · intro h
    rw [← h]
    exact Nat.mod_lt _ (Nat.two_pow_pos _)
  · exact Nat.mod_eq_of_lt

/-- The right shift comes back to a W-bit value exactly when the bits shifted out were 0 (R173). -/
theorem shr_comes_back {v w s : Nat} (hv : v < 2 ^ w) : v / 2 ^ s * 2 ^ s % 2 ^ w = v ↔ v % 2 ^ s = 0 := by
  have hle : v / 2 ^ s * 2 ^ s ≤ v := Nat.div_mul_le_self v (2 ^ s)
  have hdm := Nat.div_add_mod v (2 ^ s)
  rw [Nat.mod_eq_of_lt (by omega), Nat.mul_comm]
  omega

/-- `checked_shl` on a W-bit value (R172): the exact product with 2^s when s < W and it fits W bits. -/
theorem checkedShl_spec (w : Width) (v : Word) (s : Nat) (hv : v.toNat < 2 ^ bitWidth w) :
    checkedShl w v s = if s < bitWidth w ∧ v.toNat * 2 ^ s < 2 ^ bitWidth w
      then some (BitVec.ofNat 256 (v.toNat * 2 ^ s)) else none := by
  have hw := two_pow_bitWidth_le w
  by_cases hs : bitWidth w ≤ s
  · rw [checkedShl, if_pos hs, if_neg (by omega)]
  · by_cases h0 : s = 0
    · subst h0
      have hself : BitVec.ofNat 256 (v.toNat * 2 ^ 0) = v := BitVec.eq_of_toNat_eq (by simp)
      rw [checkedShl, if_neg hs, if_pos rfl, if_pos (by constructor <;> omega), hself]
    · have hiff : shrW (shlW w v s) s = v ↔ v.toNat * 2 ^ s < 2 ^ bitWidth w := by
        rw [← shl_comes_back (by omega : s ≤ bitWidth w), ← BitVec.toNat_inj, shrW_toNat, shlW_toNat]
      by_cases hf : v.toNat * 2 ^ s < 2 ^ bitWidth w
      · have heq : shlW w v s = BitVec.ofNat 256 (v.toNat * 2 ^ s) := BitVec.eq_of_toNat_eq (by
          rw [shlW_toNat, BitVec.toNat_ofNat, Nat.mod_eq_of_lt hf, Nat.mod_eq_of_lt (by omega)])
        rw [checkedShl, if_neg hs, if_neg h0, if_pos (hiff.2 hf), if_pos ⟨by omega, hf⟩, heq]
      · rw [checkedShl, if_neg hs, if_neg h0, if_neg (fun h => hf (hiff.1 h)), if_neg (fun h => hf h.2)]

/-- `checked_shr` on a W-bit value (R173): the exact quotient by 2^s when s < W and nothing remains. -/
theorem checkedShr_spec (w : Width) (v : Word) (s : Nat) (hv : v.toNat < 2 ^ bitWidth w) :
    checkedShr w v s = if s < bitWidth w ∧ v.toNat % 2 ^ s = 0
      then some (BitVec.ofNat 256 (v.toNat / 2 ^ s)) else none := by
  by_cases hs : bitWidth w ≤ s
  · rw [checkedShr, if_pos hs, if_neg (by omega)]
  · have heq : shrW v s = BitVec.ofNat 256 (v.toNat / 2 ^ s) := BitVec.eq_of_toNat_eq (by
      have := Nat.div_le_self v.toNat (2 ^ s)
      have := v.isLt
      rw [shrW_toNat, BitVec.toNat_ofNat, Nat.mod_eq_of_lt (by omega)])
    by_cases h0 : s = 0
    · subst h0
      have hself : BitVec.ofNat 256 (v.toNat / 2 ^ 0) = v := BitVec.eq_of_toNat_eq (by simp)
      rw [checkedShr, if_neg hs, if_pos rfl, if_pos ⟨by omega, by rw [Nat.pow_zero, Nat.mod_one]⟩, hself]
    · have hiff : shlW w (shrW v s) s = v ↔ v.toNat % 2 ^ s = 0 := by
        rw [← shr_comes_back hv, ← BitVec.toNat_inj, shlW_toNat, shrW_toNat]
      by_cases hf : v.toNat % 2 ^ s = 0
      · rw [checkedShr, if_neg hs, if_neg h0, if_pos (hiff.2 hf), if_pos ⟨by omega, hf⟩, heq]
      · rw [checkedShr, if_neg hs, if_neg h0, if_neg (fun h => hf (hiff.1 h)), if_neg (fun h => hf h.2)]

/-- The halving loop on a non-zero value below 2^(2^k), starting at half of 2^k (R175, R177 a). -/
theorem clzLoop_spec : ∀ (k fuel v count : Nat), k ≤ fuel → v ≠ 0 → v < 2 ^ 2 ^ k →
    clzLoop fuel v count (2 ^ k / 2) = count + (2 ^ k - 1 - Nat.log 2 v) := by
  intro k
  induction k with
  | zero =>
    intro fuel v count _ hv hlt
    have hv1 : v = 1 := by
      have : v < 2 := by simpa using hlt
      omega
    subst hv1
    cases fuel <;> simp [clzLoop]
  | succ k ih =>
    intro fuel v count hk hv hlt
    obtain ⟨f, rfl⟩ : ∃ f, fuel = f + 1 := ⟨fuel - 1, by omega⟩
    have hhalf : 2 ^ (k + 1) / 2 = 2 ^ k := by rw [Nat.pow_succ]; omega
    have hsum : (2 : Nat) ^ (k + 1) = 2 ^ k + 2 ^ k := by rw [Nat.pow_succ]; omega
    have hpos := Nat.two_pow_pos k
    simp only [clzLoop, hhalf, Nat.shiftRight_eq_div_pow]
    rw [if_neg (by omega)]
    by_cases hz : v / 2 ^ 2 ^ k = 0
    · have hsmall : v < 2 ^ 2 ^ k := by
        rcases Nat.div_eq_zero_iff.1 hz with h | h
        · have := Nat.two_pow_pos (2 ^ k)
          omega
        · exact h
      have hlog : Nat.log 2 v < 2 ^ k := Nat.log_lt_of_lt_pow hv hsmall
      rw [if_pos hz, ih f v (count + 2 ^ k) (by omega) hv hsmall]
      omega
    · have hlt' : v / 2 ^ 2 ^ k < 2 ^ 2 ^ k := by
        rw [Nat.div_lt_iff_lt_mul (Nat.two_pow_pos _), ← Nat.pow_add, ← hsum]
        exact hlt
      have hlog : Nat.log 2 (v / 2 ^ 2 ^ k) < 2 ^ k := Nat.log_lt_of_lt_pow hz hlt'
      have hge : 2 ^ k ≤ Nat.log 2 v := by
        apply Nat.le_log_of_pow_le (by decide)
        by_contra h
        exact hz (Nat.div_eq_of_lt (by omega))
      rw [if_neg hz, ih f _ count (by omega) hz hlt']
      rw [Nat.log_div_base_pow] at hlog ⊢
      omega

/-- Every width is a power of two with at most 8 halvings (R177 b). -/
theorem bitWidth_pow (w : Width) : ∃ k, k ≤ 8 ∧ bitWidth w = 2 ^ k := by
  cases w
  · exact ⟨3, by decide, rfl⟩
  · exact ⟨4, by decide, rfl⟩
  · exact ⟨5, by decide, rfl⟩
  · exact ⟨6, by decide, rfl⟩
  · exact ⟨7, by decide, rfl⟩
  · exact ⟨8, by decide, rfl⟩

/-- `clz` of a non-zero W-bit value is `W − 1 − m` for its top set bit m (R177 a); `clz(0, W) = W` (R175). -/
theorem countLeadingZeros_spec (w : Width) (n : Nat) (h : n < 2 ^ bitWidth w) :
    countLeadingZeros n (bitWidth w) = if n = 0 then bitWidth w else bitWidth w - 1 - Nat.log 2 n := by
  by_cases h0 : n = 0
  · simp [countLeadingZeros, h0]
  · obtain ⟨k, hk, hw⟩ := bitWidth_pow w
    rw [hw] at h ⊢
    rw [countLeadingZeros, if_neg h0, if_neg h0, clzLoop_spec k 8 n 0 hk h0 h]
    omega

/-- `floor_log` is the floor of the base-2 logarithm (R179, R181 a). -/
theorem floorLog2_spec (w : Width) (n : Nat) (h : n < 2 ^ bitWidth w) (h0 : n ≠ 0) :
    floorLog2 n (bitWidth w) = Nat.log 2 n := by
  have := Nat.log_lt_of_lt_pow h0 h
  rw [floorLog2, countLeadingZeros_spec w n h, if_neg h0]
  omega

/-- Both paths of the Nearest comparison decide `value² ≥ 2^e` (R182). The slow path is taken for e ≥ 256 only. -/
theorem squareReaches_spec (v : Word) (e : Nat) (h : maxH < v.toNat → 256 ≤ e) :
    squareReaches v e = decide (2 ^ e ≤ v.toNat * v.toNat) := by
  by_cases hf : v.toNat ≤ maxH
  · have hp : v.toNat * v.toNat < 2 ^ 256 := by
      have := Nat.mul_le_mul hf hf
      have hmax : maxH * maxH < 2 ^ 256 := by decide
      omega
    rw [squareReaches, if_pos hf, BitVec.toNat_mul, Nat.mod_eq_of_lt hp]
  · have he := h (by omega)
    have hsplit : (2 : Nat) ^ e = 2 ^ (e - 256) * 2 ^ 256 := by rw [← Nat.pow_add]; congr 1; omega
    rw [squareReaches, if_neg hf, wmul_hi, hsplit]
    simp only [Nat.le_div_iff_mul_le (Nat.two_pow_pos 256)]

/-- A value above the fast path's limit has its top bit at 128 or above (R182). -/
theorem log_of_slow {n : Nat} (h : maxH < n) : 128 ≤ Nat.log 2 n := by
  apply Nat.le_log_of_pow_le (by decide)
  have : maxH = 2 ^ 128 - 1 := rfl
  omega

/-- The floor, and for a value that is no exact power the ceiling, of a logarithm. -/
theorem clog_cases (b n : Nat) (hb : 1 < b) (h0 : n ≠ 0) :
    Nat.clog b n = if n = b ^ Nat.log b n then Nat.log b n else Nat.log b n + 1 := by
  split
  · rename_i h
    conv_lhs => rw [h]
    exact Nat.clog_pow _ _ hb
  · rename_i h
    apply Nat.le_antisymm
    · rw [Nat.clog_le_iff_le_pow hb]
      exact (Nat.lt_pow_succ_log_self hb n).le
    · rw [Nat.succ_le_iff, Nat.lt_clog_iff_pow_lt hb]
      have := Nat.pow_log_le_self b h0
      omega

/-- The logarithm of 0 is 0 in every mode (R179, R188). -/
theorem exactLog_zero (b : Nat) (m : RoundingMode) (hb : 1 < b) : exactLog b 0 m = 0 := by
  cases m
  · exact Nat.log_zero_right b
  · exact Nat.clog_zero_right b
  · simp only [exactLog, Nat.log_zero_right]
    rw [if_neg]
    simp only [Nat.mul_zero, Nat.zero_add, Nat.pow_one]
    omega

/-- The rule shared by both logarithms: an exact power is its exponent, anything else is rounded (R179, R185). -/
theorem roundLog_spec (b n : Nat) (m : RoundingMode) (hb : 1 < b) (h0 : n ≠ 0) :
    (if n = b ^ Nat.log b n then Nat.log b n
      else roundLog (Nat.log b n) m (decide (b ^ (2 * Nat.log b n + 1) ≤ n * n))) = exactLog b n m := by
  by_cases hp : n = b ^ Nat.log b n
  · rw [if_pos hp]
    cases m
    · rfl
    · rw [exactLog, clog_cases b n hb h0, if_pos hp]
    · have hlt : n * n < b ^ (2 * Nat.log b n + 1) := by
        have hsq : n * n = b ^ (2 * Nat.log b n) := by
          rw [Nat.two_mul, Nat.pow_add]
          congr 1
        rw [hsq]
        exact Nat.pow_lt_pow_right hb (Nat.lt_succ_self _)
      rw [exactLog, if_neg (by omega)]
  · rw [if_neg hp]
    cases m
    · rfl
    · rw [exactLog, clog_cases b n hb h0, if_neg hp, roundLog]
    · simp only [roundLog, exactLog, decide_eq_true_eq]

/-- `log2` of a W-bit value is the exact base-2 logarithm (R181). -/
theorem log2Of_spec (w : Width) (v : Word) (m : RoundingMode) (hv : v.toNat < 2 ^ bitWidth w) :
    log2Of w v m = exactLog 2 v.toNat m := by
  by_cases h0 : v = 0
  · subst h0
    rw [show BitVec.toNat (0 : Word) = 0 from rfl, exactLog_zero 2 m (by decide)]
    simp only [log2Of, if_true]
  · have hn := (toNat_pos h0).ne'
    rw [← roundLog_spec 2 v.toNat m (by decide) hn]
    simp only [log2Of, h0, if_false, floorLog2_spec w v.toNat hv hn]
    rw [squareReaches_spec]
    intro hslow
    have := log_of_slow hslow
    omega

/-- `log256` of a W-bit value is the exact base-256 logarithm (R187). -/
theorem log256Of_spec (w : Width) (v : Word) (m : RoundingMode) (hv : v.toNat < 2 ^ bitWidth w) :
    log256Of w v m = exactLog 256 v.toNat m := by
  by_cases h0 : v = 0
  · subst h0
    rw [show BitVec.toNat (0 : Word) = 0 from rfl, exactLog_zero 256 m (by decide)]
    simp only [log256Of, if_true]
  · have hn := (toNat_pos h0).ne'
    have hk : Nat.log 256 v.toNat = Nat.log 2 v.toNat / 8 := Nat.log_pow_left 2 8 v.toNat
    have hpow : ∀ x, 2 ^ (8 * x) = 256 ^ x := fun x => Nat.pow_mul 2 8 x
    have hthr : 2 ^ (16 * (Nat.log 2 v.toNat / 8) + 8) = 256 ^ (2 * (Nat.log 2 v.toNat / 8) + 1) := by
      rw [← hpow]
      congr 1
      omega
    have hexact : (Nat.log 2 v.toNat % 8 = 0 ∧ v.toNat = 2 ^ (8 * (Nat.log 2 v.toNat / 8))) ↔
        v.toNat = 2 ^ (8 * (Nat.log 2 v.toNat / 8)) := by
      constructor
      · exact fun h => h.2
      · intro h
        refine ⟨?_, h⟩
        have h2 : Nat.log 2 v.toNat = 8 * (Nat.log 2 v.toNat / 8) := by
          conv_lhs => rw [h]
          exact Nat.log_pow (by decide) _
        omega
    rw [← roundLog_spec 256 v.toNat m (by decide) hn]
    simp only [log256Of, h0, if_false, floorLog2_spec w v.toNat hv hn, hexact]
    rw [squareReaches_spec, hthr, hpow, hk]
    intro hslow
    have := log_of_slow hslow
    omega

/-- The exact logarithm of a W-bit value is at most W, so it fits a register (R180, R183, R186). -/
theorem exactLog_le (b n k : Nat) (m : RoundingMode) (hb : 1 < b) (h : n < b ^ k) : exactLog b n m ≤ k := by
  by_cases h0 : n = 0
  · subst h0
    rw [exactLog_zero b m hb]
    exact Nat.zero_le k
  · have hlog : Nat.log b n < k := Nat.log_lt_of_lt_pow h0 h
    cases m
    · exact hlog.le
    · exact (Nat.clog_le_iff_le_pow hb).2 h.le
    · simp only [exactLog]
      split <;> omega

end Sys2Proof.Machine
end

