-- ==== Sys2Proof/Laws/Step.lean ====
section
/-! SUPPORT. What a step and each host transaction do. -/

namespace Sys2Proof.Machine

/-- With no transaction pending the block waits (R231). -/
theorem step_idle {s : State} (h : s.pending = []) : step s = .next s := by
  simp [step, h]

/-- With a transaction pending, a step performs it (R58). -/
theorem step_perform {s : State} {t : Transaction} {rest : List Transaction} (h : s.pending = t :: rest) :
    step s = perform t (takeTransaction rest s) := by
  simp [step, h]

@[simp] theorem halted_takeTransaction (l : List Transaction) (s : State) :
    (takeTransaction l s).halted = s.halted := rfl

@[simp] theorem halted_answer (v : Word) (s : State) : (answer v s).halted = s.halted := rfl

@[simp] theorem halted_resetBlock (s : State) : (resetBlock s).halted = false := by
  show (fcOf 0#16 != 0) = false
  decide

/-- ISSUE on a halted block (R207). -/
theorem issueWord_halted {c : CmdWord} {s : State} (h : s.halted = true) : issueWord c s = .next s := by
  simp [issueWord, h]

/-- ISSUE of a legal word (R57, R78). -/
theorem issueWord_legal {c : CmdWord} {s : State} {i : Instr} (h : s.halted = false) (hc : decode c = .ok i) :
    issueWord c s = exec i s := by
  simp [issueWord, h, hc]

/-- ISSUE of an illegal word (R82). -/
theorem issueWord_illegal {c : CmdWord} {s : State} {e : DecodeError} (h : s.halted = false)
    (hc : decode c = .error e) : issueWord c s = .next (takeFault .illegalCommand s) := by
  simp [issueWord, h, hc]

/-- What ISSUE can do. -/
theorem issueWord_cases (c : CmdWord) (s : State) : ∃ t, issueWord c s = .next t ∧
    ((s.halted = true ∧ t = s) ∨ (s.halted = false ∧ (∃ e, decode c = .error e) ∧ t = takeFault .illegalCommand s) ∨
      (s.halted = false ∧ ∃ i, decode c = .ok i ∧ Ending i s t)) := by
  cases h : s.halted
  · cases hc : decode c with
    | error e => exact ⟨_, issueWord_illegal h hc, .inr (.inl ⟨rfl, ⟨e, rfl⟩, rfl⟩)⟩
    | ok i =>
      obtain ⟨t, ht, he⟩ := exec_ending i s
      exact ⟨t, by rw [issueWord_legal h hc, ht], .inr (.inr ⟨rfl, i, rfl, he⟩)⟩
  · exact ⟨s, issueWord_halted h, .inl ⟨rfl, rfl⟩⟩

/-- What an RD of a data register leaves: the answer, and nothing else but the count of free values (R54, R56). -/
theorem answerReg_cases (r : DataReg) (s : State) :
    (r.poisoned = false ∧ answerReg r s = answer r.val s) ∨
      (r.poisoned = true ∧ answerReg r s = { answer (Config.freeWord s.draws) s with draws := s.draws + 1 }) := by
  cases h : r.poisoned <;> simp [answerReg, h]

/-- One more step of a run that goes on. -/
theorem run_next {n : Nat} {s t u : State} (h : step s = .next t) (h2 : Sys2Proof.core.run n t = .next u) :
    Sys2Proof.core.run (n + 1) s = .next u := by
  have run_succ (M : Host.Core) (n : Nat) (s : M.State) : M.run (n + 1) s = (match M.step s with
    | .next s' => M.run n s'
    | .fault r => .fault r
    | .refused r => .refused r) := rfl
  rw [run_succ Sys2Proof.core n s, show Sys2Proof.core.step s = .next t from h]
  exact h2

end Sys2Proof.Machine
end

