-- ==== Sys2Proof/Tests/Slice0.lean ====
section
/-! SUPPORT. Tests: one ill-formed term for each check, a word of the spec for each constructor, one or two steps of each
command with the outcome that spec/95_test_vectors.md gives (its number stands in the comment), and for every statement
with hypotheses a state that meets them, at the boundary of each clause. -/

open Sys2Proof Sys2Proof.Machine

namespace Sys2Proof.Tests

-- The theorems one after the other: many at once, each with its own stack, exhaust the memory of a small machine.
set_option Elab.async false

-- What is well formed

/-- The fields of MULDIV at width 256 under Down, word 0x0055: every check passes. -/
def legalFields : CmdFields := { zero := 0, rm := 0, wsel := 5, op := 5 }

theorem test_wellFormed_legal : legalFields.wellFormed = true := by decide
theorem test_wellFormed_zeroClear : { legalFields with zero := 1 }.zeroClear = false := by decide
theorem test_wellFormed_opDefined : { legalFields with op := 13 }.opDefined = false := by decide
theorem test_wellFormed_widthDefined : { legalFields with wsel := 6 }.widthDefined = false := by decide
theorem test_wellFormed_modeDefined : { legalFields with rm := 3 }.modeDefined = false := by decide
theorem test_wellFormed_widthAllowed : { legalFields with op := 1, wsel := 4 }.widthAllowed = false := by decide
theorem test_wellFormed_modeAllowed : { legalFields with op := 10, rm := 1 }.modeAllowed = false := by decide
theorem test_wellFormed_refuses :
    [{ legalFields with zero := 1 }, { legalFields with op := 13 }, { legalFields with wsel := 6 },
      { legalFields with rm := 3 }, { legalFields with op := 1, wsel := 4 },
      { legalFields with op := 10, rm := 1 }].map CmdFields.wellFormed = List.replicate 6 false := by decide

/-- The last numbers that R35 allows, the first that it does not, and the two that are out of order. -/
theorem test_allowed : [Transaction.wr 2 0, .wr 3 0xFFFF, .wr 3 0x10000, .wr 4 0, .wr 7 0, .rd 2, .rd 3, .rd 6, .rd 7].map
    Transaction.allowed = [true, true, false, false, false, true, false, true, false] := by decide +kernel

-- Decoding: words written out in the spec (R85; for CSHL, CSHR and CLZ also R172, R173, R176)

theorem test_decode_wmul : decode 0x0051#16 = .ok .wmul := by decide
theorem test_decode_wdivrem : decode 0x0052#16 = .ok .wdivrem := by decide
theorem test_decode_rnd : decode 0x00D3#16 = .ok (.rnd .up) := by decide
theorem test_decode_cvt : decode 0x0044#16 = .ok (.cvt .w128) := by decide
theorem test_decode_muldiv : decode 0x0135#16 = .ok (.muldiv .w64 .nearest) := by decide
theorem test_decode_mulshr : decode 0x00A6#16 = .ok (.mulshr .w32 .up) := by decide
theorem test_decode_avg : decode 0x0117#16 = .ok (.avg .w16 .nearest) := by decide
theorem test_decode_cshl : decode 0x0058#16 = .ok (.cshl .w256) := by decide
theorem test_decode_cshr : decode 0x0009#16 = .ok (.cshr .w8) := by decide
theorem test_decode_clz : decode 0x002A#16 = .ok (.clz .w32) := by decide
theorem test_decode_log2 : decode 0x010B#16 = .ok (.log2 .w8 .nearest) := by decide
theorem test_decode_log256 : decode 0x013C#16 = .ok (.log256 .w64 .nearest) := by decide

/-- Vectors 326 to 337: illegal words, with the name of the check that refuses each. -/
theorem test_decode_illegal :
    [0x0000, 0xFFFF, 0x005D, 0x0075, 0x0065, 0x01D5, 0x0041, 0x00D1, 0x0043, 0x008A, 0x0255, 0x8051].map
      (fun c : CmdWord => match decode c with | .ok _ => none | .error e => some e) =
    [some .reservedOp, some .zeroBitsSet, some .reservedOp, some .reservedWidth, some .reservedWidth, some .reservedMode,
      some .widthMustBe256, some .modeMustBeZero, some .widthMustBe256, some .modeMustBeZero, some .zeroBitsSet,
      some .zeroBitsSet] := by decide

/-- The bits above those the table gives belong to no command. -/
theorem test_decodeTableWord : decodeTableWord 16 0x10051 = some .wmul ∧ decodeTableWord 8 0x51 = some .wmul ∧
    decodeTableWord 16 0x0041 = none := by decide

-- One step of each command

/-- The block after RESET and WR of the registers that are given. -/
def loaded (a b d : Option Word) : State :=
  { State.reset with
    a := (a.map written).getD .afterReset, b := (b.map written).getD .afterReset, d := (d.map written).getD .afterReset }

/-- What a register shows the host: nothing under a poison mark. -/
def content (r : DataReg) : Option Nat := if r.poisoned then none else some r.val.toNat

/-- What the host sees after a command: R0, R1 and STATUS. -/
def seen : Host.Outcome State Fault Refusal → Option (Option Nat × Option Nat × Nat)
  | .next t => some (content t.r0, content t.r1, t.status.toNat)
  | .fault _ => none
  | .refused _ => none

/-- One step, with ISSUE of the word `c` as the host's next transaction. -/
def issued (c : Nat) (s : State) : Option (Option Nat × Option Nat × Nat) := seen (step (s.withFetchWord 16 c))

-- 100: (2^256 − 1)²
theorem test_wmul_largest : issued 0x0051 (loaded (some maxC) (some maxC) none) =
    some (some 1, some (2 ^ 256 - 2), 0x0002) := by decide +kernel
-- 106: all four partial products
theorem test_wmul_carries : issued 0x0051 (loaded (some (2 ^ 128 + 1)) (some (2 ^ 128 + 1)) none) =
    some (some (2 ^ 129 + 1), some 1, 0x0002) := by decide +kernel
-- 118: the largest numerator that does not overflow
theorem test_wdivrem_largest : issued 0x0052 (loaded (some maxC) (some (maxC - 1)) (some maxC)) =
    some (some (2 ^ 256 - 1), some (2 ^ 256 - 2), 0x0002) := by decide +kernel
-- 114: 0 / 0
theorem test_wdivrem_zero : issued 0x0052 (loaded (some 0) (some 0) (some 0)) = some (none, none, 0x0004) := by
  decide +kernel
-- 119: a tie rounds up
theorem test_rnd_tie : issued 0x0153 (loaded (some 17) (some 2) (some 4)) = some (some 18, none, 0x0002) := by
  decide +kernel
-- 134: the comparison without a 257th bit
theorem test_rnd_wide_compare : issued 0x0153 (loaded (some 0) (some (2 ^ 255 - 1)) (some maxC)) =
    some (some 0, none, 0x0002) := by decide +kernel
-- 137
theorem test_cvt_overflow : issued 0x0004 (loaded (some 400) none none) = some (none, none, 0x0001) := by decide +kernel
-- 138
theorem test_cvt_fits : issued 0x0014 (loaded (some 400) none none) = some (some 400, none, 0x0002) := by decide +kernel
-- 164: upper bits of A and D ignored, under Up
theorem test_muldiv_view : issued 0x0085 (loaded (some 511) (some 2) (some 260)) = some (some 128, none, 0x0002) := by
  decide +kernel
-- 153: the floor is MAXC and Nearest does not round up
theorem test_muldiv_boundary : issued 0x0155 (loaded (some 11)
    (some 0x5d1745d1745d1745d1745d1745d1745d1745d1745d1745d1745d1745d1745d17) (some 4)) =
    some (some (2 ^ 256 - 1), none, 0x0002) := by decide +kernel
-- 182: one bit from the top, under Nearest
theorem test_mulshr_nearest : issued 0x0156 (loaded (some maxC) (some 1) (some 255)) = some (some 2, none, 0x0002) := by
  decide +kernel
-- 188: the alternative bound
theorem test_mulshr_per_width : issued 0x0006
    { loaded (some 1) (some 1) (some 8) with mulshrBound := .perWidth } = some (none, none, 0x0008) := by decide +kernel
-- 202: upper bits ignored
theorem test_avg_view : issued 0x0007 (loaded (some 511) (some 766) none) = some (some 254, none, 0x0002) := by
  decide +kernel
-- 199: a difference of more than 128 bits, under Up
theorem test_avg_wide : issued 0x00D7 (loaded (some maxC) (some 0) none) = some (some (2 ^ 255), none, 0x0002) := by
  decide +kernel
-- 215: upper bits of A ignored
theorem test_cshl_view : issued 0x0008 (loaded (some 271) none (some 4)) = some (some 240, none, 0x0002) := by
  decide +kernel
-- 208: a shift by W of 0 is still no result
theorem test_cshl_guard : issued 0x0008 (loaded (some 0) none (some 8)) = some (none, none, 0x0001) := by decide +kernel
-- 224
theorem test_cshr_lost : issued 0x0009 (loaded (some 248) none (some 4)) = some (none, none, 0x0001) := by decide +kernel
-- 234
theorem test_cshr_top : issued 0x0059 (loaded (some (2 ^ 255)) none (some 255)) = some (some 1, none, 0x0002) := by
  decide +kernel
-- 241: A[7:0] = 0
theorem test_clz_view : issued 0x000A (loaded (some 256) none none) = some (some 8, none, 0x0002) := by decide +kernel
-- 247
theorem test_clz_middle : issued 0x002A (loaded (some 1000) none none) = some (some 22, none, 0x0002) := by decide +kernel
-- 6
theorem test_log2_up : issued 0x00DB (loaded (some 255) none none) = some (some 8, none, 0x0002) := by decide +kernel
-- R181 e: 182² reaches 2^15
theorem test_log2_nearest : issued 0x010B (loaded (some 182) none none) = some (some 8, none, 0x0002) := by decide +kernel
-- 322: just below the tie
theorem test_log256_below_tie : issued 0x015C (loaded (some (2 ^ 252 - 1)) none none) =
    some (some 31, none, 0x0002) := by decide +kernel
-- 323: the tie rounds up
theorem test_log256_tie : issued 0x015C (loaded (some (2 ^ 252)) none none) = some (some 32, none, 0x0002) := by
  decide +kernel

-- The machine

/-- A halted block: `muldiv.8.dn` with a zero denominator (vector 13). -/
def haltedState : State := takeFault .divideByZero (loaded (some 5) (some 5) (some 0))

/-- What a step leaves of the operand registers, FC and what the host read. -/
def kept : Host.Outcome State Fault Refusal → Option (List DataReg × Nat × Option Word)
  | .next t => some ([t.a, t.b, t.d], (fcOf t.status).toNat, t.readData)
  | .fault _ => none
  | .refused _ => none

/-- A halted block takes neither WR nor ISSUE, and an illegal word keeps the first cause (R207). -/
theorem test_halted : [Transaction.wr 0 9, .issue 0x0051, .issue 0].map
    (fun x => kept (step { haltedState with pending := [x] })) =
      List.replicate 3 (some ([written 5, written 5, written 0], 1, none)) := by decide +kernel

/-- The host reads the cause of a halted block (R56, R207). -/
theorem test_halted_status : kept (step { haltedState with pending := [.rd 6] }) =
    some ([written 5, written 5, written 0], 1, some 0x0004) := by decide +kernel

/-- RESET leaves the halted state (R65). -/
theorem test_reset : kept (step { haltedState with pending := [.reset] }) =
    some ([.afterReset, .afterReset, .afterReset], 0, none) := by decide +kernel

/-- An illegal word on poisoned operands faults (R205). -/
theorem test_illegal_first : issued 0 State.reset = some (none, none, 0x000C) := by decide +kernel

/-- The first command after reset finds poisoned operands and still answers a next state with A, B and D kept. -/
theorem test_first_command : (seen (step (State.reset.withFetchWord 16 0x0051))).map (fun x => (x.1, x.2.1)) =
    some (none, none) := by decide +kernel

/-- RND with D = 0 does not fault: "D = 0 is not DivideByZero here" (R122, R203). -/
theorem test_rnd_zero_denominator : ∃ t, exec (.rnd .up) (loaded (some 17) (some 0) (some 0)) = .next t ∧
    fcOf t.status = 0 :=
  ⟨completeUnstated _, rfl, (completeUnstated_ends _).fc⟩

-- A state for the hypotheses of each statement. The theorem test_witness_X is for Obligations.X

/-- A block with three operands written and the transactions `l` at the port. -/
def port (l : List Transaction) : State := { loaded (some 6) (some 10) (some 4) with pending := l }

/-- Whether the spec determines the command, and the status word it leaves. -/
def tried (i : Instr) (s : State) : Bool × Option Nat := (determined i s, (seen (exec i s)).map (fun x => x.2.2))

/-- The three operands as given. -/
def ops (a b d : Word) : State := loaded (some a) (some b) (some d)

theorem test_witness_WordFieldLayout : legalFields.zero = 0 ∧ packFields legalFields = 0x0055 := by decide
theorem test_witness_DecodedRowIsSelectedByMatchAndMask : [0x0000, 0x000D, 0x000E, 0x000F].all
    (fun c : CmdWord => decide ((fieldsOf c).op.toNat ∈ [0x0, 0xD, 0xE, 0xF])) = true := by decide
theorem test_witness_StepRunsDecodedCommand : (port [.issue 0x0051]).pending = .issue 0x0051 :: [] ∧
    (port [.issue 0x0051]).halted = false ∧ decode 0x0051 = .ok .wmul := by decide +kernel
theorem test_witness_WriteToCmdIsIssue :
    (port [.wr 3 0xFFFF]).pending = .wr 3 ((0xFFFF : CmdWord).setWidth 256) :: [] := by decide +kernel
theorem test_witness_IllegalWordRaisesIllegalCommand : (port [.issue 0xFFFF]).pending = .issue 0xFFFF :: [] ∧
    (port [.issue 0xFFFF]).halted = false ∧ ¬ ∃ i, decode 0xFFFF = .ok i :=
  ⟨rfl, by decide +kernel, by rw [show decode 0xFFFF = .error .zeroBitsSet by decide]; rintro ⟨i, h⟩; cases h⟩
theorem test_witness_IdleBlockChangesNothing : State.reset.pending = [] := by decide
theorem test_witness_WriteSetsOneOperandRegister :
    (port [.wr 0 maxC]).halted = false ∧ (port [.wr 1 maxC]).halted = false ∧ (port [.wr 2 maxC]).halted = false ∧
    (2 : RegNum).toNat ≤ 2 ∧ { haltedState with pending := [.wr 2 maxC] }.halted = true := by decide +kernel
theorem test_witness_ReadReturnsContentAndChangesNothing :
    (port [.rd 0]).a.poisoned = false ∧ (port [.rd 1]).b.poisoned = false ∧ (port [.rd 2]).d.poisoned = false ∧
    (completeTwo 1 2 (port [.rd 4])).r0.poisoned = false ∧ (completeTwo 1 2 (port [.rd 5])).r1.poisoned = false ∧
    (completeTwo 1 2 (port [.rd 5])).pending = .rd 5 :: [] ∧ (port [.rd 6]).pending = .rd 6 :: [] := by decide +kernel
theorem test_witness_ReadOfPoisonedRegisterChangesNoRegister :
    let s := { State.reset with pending := [Transaction.rd 5] }
    s.pending = .rd 5 :: [] ∧
    ((5 : RegNum), s.r1) ∈ [((0 : RegNum), s.a), (1, s.b), (2, s.d), (4, s.r0), (5, s.r1)] ∧ s.r1.poisoned = true := by
  decide +kernel
theorem test_witness_TransactionsOutsideTheTableAreRefused :
    (port [.wr 4 0]).pending = .wr 4 0 :: [] ∧ 4 ≤ (4 : RegNum).toNat ∧ 4 ≤ (7 : RegNum).toNat ∧
    (port [.rd 3]).pending = .rd 3 :: [] ∧ (3 : RegNum).toNat = 3 ∧ (7 : RegNum).toNat = 7 ∧
    (port [.wr 3 (2 ^ 16)]).pending = .wr 3 (2 ^ 16) :: [] ∧ 2 ^ 16 ≤ (2 ^ 16 : Word).toNat := by decide +kernel
theorem test_witness_ResetTransactionGivesResetTable :
    { haltedState with pending := [.reset] }.pending = .reset :: [] := by decide
theorem test_witness_WmulWritesExactProduct : tried .wmul (ops maxC maxC 0) = (true, some 2) := by decide +kernel
/-- D = 0; B = D; B = D − 1. -/
theorem test_witness_WdivremDividesOrReports : [ops 5 7 0, ops 5 3 3, ops 5 2 3].map (tried .wdivrem) =
    [(true, some 4), (true, some 1), (true, some 2)] := by decide +kernel
/-- A = MAXC and A = MAXC − 1 with B ≠ 0 under Up; B = 0; 2·B = D and 2·B = D − 1 under Nearest. -/
theorem test_witness_RndRoundsResult :
    [ops maxC 1 4, ops (maxC - 1) 1 4, ops maxC 0 4].map (tried (.rnd .up)) =
      [(true, some 1), (true, some 2), (true, some 2)] ∧
    [ops maxC 2 4, ops maxC 2 5].map (tried (.rnd .nearest)) = [(true, some 1), (true, some 2)] := by decide +kernel
/-- A = MAX(W) and A = MAX(W) + 1. -/
theorem test_witness_CvtNarrowsOrReports : [ops 255 0 0, ops 256 0 0].map (tried (.cvt .w8)) =
    [(true, some 2), (true, some 1)] := by decide +kernel
/-- A zero view of D; the rounded quotient MAX(W); the rounded quotient MAX(W) + 1. -/
theorem test_witness_MuldivIsExactRoundedQuotient : [ops 5 5 256, ops 255 2 2, ops 16 16 1].map (tried (.muldiv .w8 .up)) =
    [(true, some 4), (true, some 2), (true, some 1)] := by decide +kernel
/-- D at the bound and one below it, for both bounds; the rounded quotient MAX(W) and MAX(W) + 1. -/
theorem test_witness_MulshrIsExactRoundedShift :
    [ops 1 1 256, ops 1 1 255, { ops 1 1 8 with mulshrBound := .perWidth }, { ops 1 1 7 with mulshrBound := .perWidth },
      ops 15 17 0, ops 16 16 0].map (tried (.mulshr .w8 .up)) =
    [(true, some 8), (true, some 2), (true, some 8), (true, some 2), (true, some 2), (true, some 1)] := by decide +kernel
theorem test_witness_AvgIsRoundedHalfSum : tried (.avg .w8 .up) (loaded (some 255) (some 254) none) = (true, some 2) := by
  decide +kernel
/-- The largest shift that fits; one bit more; D = W − 1 and D = W. -/
theorem test_witness_CshlShiftsOrReports : [ops 127 0 1, ops 128 0 1, ops 1 0 7, ops 0 0 8].map (tried (.cshl .w8)) =
    [(true, some 2), (true, some 1), (true, some 2), (true, some 1)] := by decide +kernel
/-- Nothing remains; one bit remains; D = W − 1 and D = W. -/
theorem test_witness_CshrShiftsOrReports : [ops 2 0 1, ops 1 0 1, ops 128 0 7, ops 0 0 8].map (tried (.cshr .w8)) =
    [(true, some 2), (true, some 1), (true, some 2), (true, some 1)] := by decide +kernel
/-- The views 0 and 1. -/
theorem test_witness_ClzCountsLeadingZeros : [ops 256 0 0, ops 257 0 0].map (tried (.clz .w8)) =
    [(true, some 2), (true, some 2)] := by decide +kernel
theorem test_witness_Log2IsExactLogarithm : tried (.log2 .w8 .nearest) (ops 181 0 0) = (true, some 2) := by decide +kernel
theorem test_witness_Log256IsExactLogarithm : tried (.log256 .w16 .nearest) (ops 4096 0 0) = (true, some 2) := by
  decide +kernel
/-- Poisoned operands; RND with B = D. -/
theorem test_witness_UnspecifiedOutcomeKeepsOperands :
    determined .wmul State.reset = false ∧ operandsDefined .wmul State.reset = false ∧
    determined (.rnd .up) (ops 1 4 4) = false ∧ operandsDefined (.rnd .up) (ops 1 4 4) = true := by decide +kernel
theorem test_witness_NoCommandWritesOperandRegisters : ∃ t, exec (.cvt .w8) (ops 1 2 3) = .next t := ⟨_, rfl⟩
/-- A word that selects nothing; a zero divisor; a zero view; a shift at the bound and one below it. -/
theorem test_witness_FaultsAreExactlyTheListedOnes :
    ((ops 5 5 0).withFetchWord 16 0x0052).pending = .issue 0x0052 :: [] ∧
    [ops 5 5 0, ops 5 5 256, ops 5 5 255].map (fun s => (s.halted,
      [0x0000, 0x0052, 0x0005, 0x0006].map (fun c => (issued c s).map (fun x => x.2.2)))) =
    [(false, [some 12, some 4, some 4, some 2]), (false, [some 12, some 2, some 4, some 8]),
      (false, [some 12, some 2, some 2, some 2])] ∧
    [Instr.wdivrem, .muldiv .w8 .down, .mulshr .w8 .down, .rnd .up].all (fun i => operandsDefined i (ops 5 5 0)) = true := by
  decide +kernel
/-- A result, a range violation and a fault, each from a block that is not halted; RND with B = D. -/
theorem test_witness_RangeViolationsAndFaultsNeverMix :
    [ops 255 1 1, ops 16 16 1, ops 5 5 0].map (fun s => (s.halted, tried (.muldiv .w8 .down) s)) =
    [(false, true, some 2), (false, true, some 1), (false, true, some 4)] ∧
    operandsDefined (.rnd .up) (ops 1 4 4) = true := by decide +kernel
theorem test_witness_CommandsThatReportRangeViolations :
    [Instr.wmul, .avg .w8 .up, .clz .w8, .log2 .w8 .up, .log256 .w8 .up].map (fun i => tried i (ops 255 255 0)) =
    List.replicate 5 (true, some 2) := by decide +kernel
theorem test_witness_ResultsFitTheirWidth : tried (.cvt .w8) (ops 255 0 0) = (true, some 2) ∧
    vldOf 2#16 = true := by decide +kernel
/-- Operands that differ above bit 7 only. -/
theorem test_witness_UpperOperandBitsAreIgnored : SameOperandView (.avg .w8 .up) (ops 255 1 0) (ops 511 257 9) ∧
    fcOf (ops 255 1 0).status = fcOf (ops 511 257 9).status ∧
    [ops 255 1 0, ops 511 257 9].map (tried (.avg .w8 .up)) = [(true, some 2), (true, some 2)] :=
  ⟨⟨by decide +kernel, by decide +kernel⟩, rfl, by decide +kernel⟩
/-- States that differ in all that the statement lets differ: R0, R1, the reserved bits, OVF and VLD, and the model's own
fields. -/
theorem test_witness_OutcomeDependsOnOperandsAlone :
    let s := ops 7 10 4
    let s' := { ops 7 10 4 with r0 := written 1, r1 := written 2, status := 0xFFE3, draws := 9, readData := some 1 }
    s.a = s'.a ∧ s.b = s'.b ∧ s.d = s'.d ∧ s.mulshrBound = s'.mulshrBound ∧ fcOf s.status = fcOf s'.status ∧
    tried (.muldiv .w64 .up) s = (true, some 2) ∧ (tried (.muldiv .w64 .up) s').1 = true := by decide +kernel

theorem test_reset_inv : State.reset.Inv := ⟨by decide, by decide, fun _ => ⟨rfl, rfl⟩, fun _ => ⟨rfl, rfl⟩⟩

/-- A state like the one after reset but for the operands and the host's side has the invariants. -/
theorem test_port_coherent (l : List Transaction) (a b d : Option Word) :
    State.Coherent { loaded a b d with pending := l } :=
  ⟨⟨test_reset_inv.reserved, test_reset_inv.fc, fun _ => ⟨rfl, rfl⟩, fun _ => ⟨rfl, rfl⟩⟩,
    (by decide : (0 : StatusWord).toNat ∈ [0x0000, 0x0001, 0x0002, 0x0004, 0x0008, 0x000C]),
    fun h => absurd (show vldOf 0#16 = true from h) (by decide)⟩

theorem test_witness_StatusWordAfterCommand : (ops 5 5 0).Inv ∧ (ops 5 5 0).halted = false ∧
    tried (.muldiv .w8 .up) (ops 5 5 0) = (true, some 4) ∧ tried (.avg .w8 .up) (ops 5 5 0) = (true, some 2) :=
  ⟨(test_port_coherent [] (some 5) (some 5) (some 0)).inv, by decide +kernel, by decide +kernel, by decide +kernel⟩
theorem test_witness_StepKeepsStatusAndPoisonInvariant :
    (port [.issue 0x0055]).Inv ∧ ∃ t, step (port [.issue 0x0055]) = .next t :=
  ⟨(test_port_coherent _ _ _ _).inv, ⟨_, rfl⟩⟩
theorem test_witness_ConformingStepKeepsCoherence : (port [.issue 0x0055]).Coherent ∧
    conformingNext (port [.issue 0x0055]) = true ∧ ∃ t, step (port [.issue 0x0055]) = .next t :=
  ⟨test_port_coherent _ _ _ _, by decide +kernel, ⟨_, rfl⟩⟩
/-- Two states that differ under a poison mark. -/
theorem test_witness_ConformingHostSeesNoUnspecifiedValue :
    (port [.issue 0x0055]).Coherent ∧ conformingNext (port [.issue 0x0055]) = true ∧
    SameDefined (port [.issue 0x0055])
      { port [.issue 0x0055] with r0 := { val := 9, poisoned := true }, draws := 4 } :=
  ⟨test_port_coherent _ _ _ _, by decide +kernel, ⟨rfl, fun _ => rfl⟩, ⟨rfl, fun _ => rfl⟩, ⟨rfl, fun _ => rfl⟩,
    ⟨rfl, fun h => absurd h (by decide)⟩, ⟨rfl, fun _ => rfl⟩, rfl, rfl, rfl, rfl⟩
theorem test_witness_AllowedTransactionsAllComplete :
    ∀ x ∈ (port [.reset, .wr 2 0, .wr 3 0xFFFF, .issue 0, .rd 0, .rd 6]).pending, x.allowed = true := by decide +kernel
theorem test_witness_HaltedBlockIsStuckUntilReset : haltedState.halted = true ∧
    ∀ x ∈ { haltedState with pending := [.wr 0 1, .issue 0x0051, .rd 6] }.pending, x.allowed = true ∧ x ≠ .reset := by
  decide +kernel
theorem test_witness_OnlyResetClearsFaultCause :
    let s := { haltedState with pending := [Transaction.reset] }
    s.halted = true ∧ ∃ t, step s = .next t ∧ fcOf t.status ≠ fcOf s.status :=
  ⟨by decide +kernel, _, rfl, by decide +kernel⟩
/-- The largest partial products and diagonals that the clauses allow. -/
theorem test_witness_MultiplierFacts :
    2 ^ 128 - 1 < 2 ^ 128 ∧ halfHi ((2 ^ 128 - 1) * (2 ^ 128 - 1)) ≤ 2 ^ 128 - 2 ∧ 2 ≤ 2 := by decide +kernel
/-- The remainder d − 1; the high limb d and d − 1. -/
theorem test_witness_DividerFacts : (7 : Word) ≠ 0 ∧ 6 < (7 : Word).toNat ∧
    divRem { hi := 7, lo := 0 } 7 = .overflow ∧ ({ hi := 6, lo := 0 } : Wide).hi.toNat < (7 : Word).toNat := by
  decide +kernel
theorem test_witness_FastAndWidePathAgree : (3 : Word) ≠ 0 ∧ (2 ^ 128 - 1 : Word).toNat ≤ 2 ^ 128 - 1 := by decide +kernel
/-- The second state is the first one's results copied to A and B, with D = A. -/
theorem test_witness_MultiplyThenDivideRoundTrip :
    let s := ops 7 maxC 0
    let t := completeTwo 0xfffffffffffffffffffffffffffffffffffffffffffffffffffffffffffffff9 6 s
    let s' := { s with a := t.r0, b := t.r1, d := s.a }
    s.a.poisoned = false ∧ s.b.poisoned = false ∧ s.a.val ≠ 0 ∧ exec .wmul s = .next t ∧
    s'.a = t.r0 ∧ s'.b = t.r1 ∧ s'.d = s.a := by
  refine ⟨rfl, rfl, by decide +kernel, ?_, rfl, rfl, rfl⟩
  show Host.Outcome.next (completeTwo (wmul 7 maxC).lo (wmul 7 maxC).hi _) = _
  rw [show wmul 7 maxC =
    { hi := 6, lo := 0xfffffffffffffffffffffffffffffffffffffffffffffffffffffffffffffff9 } by decide +kernel]
/-- 15 shifted left by 4 at width 8, and the result copied to A. -/
theorem test_witness_CheckedShiftsRoundTrip_left :
    let s := ops 15 0 4
    let t := completeOne 240 s
    let s' := { s with a := t.r0 }
    s.a.poisoned = false ∧ s.d.poisoned = false ∧ vldOf t.status = true ∧ s'.a = t.r0 ∧ s'.d = s.d ∧
    exec (.cshl .w8) s = .next t :=
  ⟨rfl, rfl, by decide +kernel, rfl, rfl, rfl⟩
/-- 240 shifted right by 4 at width 8, and the result copied to A. -/
theorem test_witness_CheckedShiftsRoundTrip_right :
    let s := ops 240 0 4
    let t := completeOne 15 s
    let s' := { s with a := t.r0 }
    s.a.poisoned = false ∧ s.d.poisoned = false ∧ vldOf t.status = true ∧ s'.a = t.r0 ∧ s'.d = s.d ∧
    exec (.cshr .w8) s = .next t :=
  ⟨rfl, rfl, by decide +kernel, rfl, rfl, rfl⟩
/-- 6·10/4: no mode overflows and the divisor divides the product. -/
theorem test_witness_MuldivModesAreOrdered :
    let s := ops 6 10 4
    s.a.poisoned = false ∧ s.b.poisoned = false ∧ s.d.poisoned = false ∧ viewNat .w64 s.d.val ≠ 0 ∧
    viewNat .w64 s.d.val ∣ viewNat .w64 s.a.val * viewNat .w64 s.b.val ∧
    ∃ td tn tu, exec (.muldiv .w64 .down) s = .next td ∧ exec (.muldiv .w64 .nearest) s = .next tn ∧
      exec (.muldiv .w64 .up) s = .next tu ∧ vldOf td.status = true ∧ vldOf tn.status = true ∧ vldOf tu.status = true :=
  ⟨rfl, rfl, rfl, by decide +kernel, by decide +kernel, _, _, _, rfl, rfl, rfl, by decide +kernel, by decide +kernel,
    by decide +kernel⟩
theorem test_witness_AvgIsSymmetricAndNearestIsUp : (ops 10 13 0).a.poisoned = false ∧ (ops 10 13 0).b.poisoned = false ∧
    (ops 13 10 0).a = (ops 10 13 0).b ∧ (ops 13 10 0).b = (ops 10 13 0).a ∧
    fcOf (ops 10 13 0).status = fcOf (ops 13 10 0).status := by decide +kernel
/-- MAX(W) at the smallest and the largest width, with bits above it at width 8. -/
theorem test_witness_LogarithmsOfTheMaximumValue : (ops 511 0 0).a.poisoned = false ∧
    viewNat .w8 (ops 511 0 0).a.val = 2 ^ bitWidth .w8 - 1 ∧
    viewNat .w256 (ops maxC 0 0).a.val = 2 ^ bitWidth .w256 - 1 := by decide +kernel

end Sys2Proof.Tests
end

section
/-! PROOFS. What the host transactions do: each write and read by register number, and the one inversion of `perform` and
of `step` from which the invariants follow. -/

namespace Sys2Proof.Machine

-- Register numbers (R35)

/-- The three parts of the table for WR: the operand registers, CMD, and what WR may not name. -/
theorem regNum_cases : ∀ n : RegNum, n.toNat ≤ 2 ∨ n = 3 ∨ 4 ≤ n.toNat := by decide

/-- Numbers 0 to 2 name the operand registers. -/
theorem regOf_operand : ∀ n : RegNum, n.toNat ≤ 2 → regOf n = some .a ∨ regOf n = some .b ∨ regOf n = some .d := by
  decide

/-- Numbers 4 to 7 name no register that WR may write. -/
theorem regOf_not_writable : ∀ n : RegNum, 4 ≤ n.toNat →
    regOf n = some .r0 ∨ regOf n = some .r1 ∨ regOf n = some .status ∨ regOf n = none := by decide

/-- Numbers 4 to 6 name the registers that only RD may name. -/
theorem regOf_result : ∀ n : RegNum, 4 ≤ n.toNat → n.toNat ≤ 6 →
    regOf n = some .r0 ∨ regOf n = some .r1 ∨ regOf n = some .status := by decide

/-- Numbers 3 and 7 name no register that RD may read. -/
theorem regOf_not_readable : ∀ n : RegNum, n.toNat = 3 ∨ n.toNat = 7 → regOf n = some .cmd ∨ regOf n = none := by
  decide

-- WR (R55, R57)

/-- WR of an operand register changes A, B or D at most, and nothing on a halted block (R55, R207). -/
theorem hostWrite_operand {n : RegNum} (hn : n.toNat ≤ 2) (v : Word) (s : State) : ∃ a b d,
    hostWrite n v s = .next { s with a := a, b := b, d := d } ∧
      (s.halted = true → { s with a := a, b := b, d := d } = s) := by
  cases hh : s.halted
  · rcases regOf_operand n hn with hr | hr | hr
    · exact ⟨written v, s.b, s.d, by simp [hostWrite, hr, hh]⟩
    · exact ⟨s.a, written v, s.d, by simp [hostWrite, hr, hh]⟩
    · exact ⟨s.a, s.b, written v, by simp [hostWrite, hr, hh]⟩
  · refine ⟨s.a, s.b, s.d, ?_, fun _ => rfl⟩
    rcases regOf_operand n hn with hr | hr | hr <;> simp [hostWrite, hr, hh]

theorem hostWrite_cmd (v : Word) (s : State) : hostWrite 3 v s = writeCmd v s := rfl

theorem hostWrite_refused {n : RegNum} (hn : 4 ≤ n.toNat) (v : Word) (s : State) :
    hostWrite n v s = .refused .noSuchTransaction := by
  rcases regOf_not_writable n hn with hr | hr | hr | hr <;> simp [hostWrite, hr]

theorem writeCmd_fits {v : Word} (hv : v.toNat < 2 ^ 16) (s : State) : writeCmd v s = issueWord (v.setWidth 16) s :=
  if_pos hv

theorem writeCmd_tooWide {v : Word} (hv : 2 ^ 16 ≤ v.toNat) (s : State) :
    writeCmd v s = .refused .commandTooWide := if_neg (Nat.not_lt.2 hv)

/-- WR to CMD of a zero-extended command word is ISSUE of it (R57). -/
theorem writeCmd_setWidth (c : CmdWord) (s : State) : writeCmd (c.setWidth 256) s = issueWord c s := by
  have hc := c.isLt
  have hfits : (c.setWidth 256).toNat < 2 ^ 16 := by
    rw [BitVec.toNat_setWidth]
    omega
  rw [writeCmd_fits hfits, BitVec.setWidth_setWidth_of_le c (by decide), BitVec.setWidth_eq]

-- RD (R56)

/-- RD of a data register changes only what the host has read and the count of free values (R54, R56). -/
theorem answerReg_eq (r : DataReg) (s : State) : ∃ v k, answerReg r s = { s with readData := some v, draws := k } := by
  rcases answerReg_cases r s with ⟨-, h⟩ | ⟨-, h⟩
  · exact ⟨r.val, s.draws, h⟩
  · exact ⟨Config.freeWord s.draws, s.draws + 1, h⟩

/-- RD of a register the table lets the host read (R56), poisoned or not. -/
theorem hostRead_readable {n : RegNum} (hn : n.toNat ≤ 2 ∨ 4 ≤ n.toNat ∧ n.toNat ≤ 6) (s : State) :
    ∃ v k, hostRead n s = .next { s with readData := some v, draws := k } := by
  have hdata (r : DataReg) (h : hostRead n s = .next (answerReg r s)) :
      ∃ v k, hostRead n s = .next { s with readData := some v, draws := k } := by
    obtain ⟨v, k, hr⟩ := answerReg_eq r s
    exact ⟨v, k, by rw [h, hr]⟩
  rcases hn with hn | ⟨hlo, hhi⟩
  · rcases regOf_operand n hn with hr | hr | hr
    · exact hdata s.a (by simp [hostRead, hr])
    · exact hdata s.b (by simp [hostRead, hr])
    · exact hdata s.d (by simp [hostRead, hr])
  · rcases regOf_result n hlo hhi with hr | hr | hr
    · exact hdata s.r0 (by simp [hostRead, hr])
    · exact hdata s.r1 (by simp [hostRead, hr])
    · exact ⟨s.status.setWidth 256, s.draws, by simp [hostRead, hr, answer]⟩

theorem hostRead_refused {n : RegNum} (hn : n.toNat = 3 ∨ n.toNat = 7) (s : State) :
    hostRead n s = .refused .noSuchTransaction := by
  rcases regOf_not_readable n hn with hr | hr <;> simp [hostRead, hr]

-- Every transaction, and the step (R58)

/-- What a transaction that is performed does, case by case (R55, R56, R57, R65). -/
inductive Performed (s : State) : Transaction → State → Prop where
  | reset : Performed s .reset (resetBlock s)
  | issue {c : CmdWord} {t : State} (h : issueWord c s = .next t) : Performed s (.issue c) t
  | wrCmd {v : Word} {t : State} (h : issueWord (v.setWidth 16) s = .next t) : Performed s (.wr 3 v) t
  | wrOperand {n : RegNum} {v : Word} (hn : n.toNat ≤ 2) (a b d : DataReg)
      (hh : s.halted = true → { s with a := a, b := b, d := d } = s) :
      Performed s (.wr n v) { s with a := a, b := b, d := d }
  | rd {n : RegNum} (v : Word) (k : Nat) : Performed s (.rd n) { s with readData := some v, draws := k }

/-- The table of R35 decides: an allowed transaction is performed, and any other is refused (U6, log entry 9). -/
theorem perform_cases (x : Transaction) (s : State) :
    (x.allowed = true ∧ ∃ t, perform x s = .next t ∧ Performed s x t) ∨
      (x.allowed = false ∧ ∃ r, perform x s = .refused r) := by
  cases x with
  | reset => exact .inl ⟨rfl, _, rfl, .reset⟩
  | issue c =>
    obtain ⟨t, ht, -⟩ := issueWord_cases c s
    exact .inl ⟨rfl, t, ht, .issue ht⟩
  | rd n =>
    by_cases hn : n.toNat ≤ 2 ∨ 4 ≤ n.toNat ∧ n.toNat ≤ 6
    · obtain ⟨v, k, h⟩ := hostRead_readable hn s
      exact .inl ⟨by simpa [Transaction.allowed] using hn, _, h, .rd v k⟩
    · have hlt := n.isLt
      exact .inr ⟨by simpa [Transaction.allowed] using hn, _, hostRead_refused (by omega) s⟩
  | wr n v =>
    obtain hn | rfl | hn := regNum_cases n
    · obtain ⟨a, b, d, h, hh⟩ := hostWrite_operand hn v s
      exact .inl ⟨by simp [Transaction.allowed, hn], _, h, .wrOperand hn a b d hh⟩
    · by_cases hv : v.toNat < 2 ^ 16
      · obtain ⟨t, ht, -⟩ := issueWord_cases (v.setWidth 16) s
        exact .inl ⟨by simpa [Transaction.allowed] using hv, t, (writeCmd_fits hv s).trans ht, .wrCmd ht⟩
      · exact .inr ⟨by simpa [Transaction.allowed] using hv, _, writeCmd_tooWide (Nat.not_lt.1 hv) s⟩
    · have h3 : n ≠ 3#3 := by
        rintro rfl
        exact absurd hn (by decide)
      have h2 : ¬ n.toNat ≤ 2 := by omega
      exact .inr ⟨by simp [Transaction.allowed, h2, h3], _, hostWrite_refused hn v s⟩

/-- What a step that answers has done. -/
theorem step_cases {s t : State} (h : step s = .next t) :
    (s.pending = [] ∧ t = s) ∨
      ∃ x rest, s.pending = x :: rest ∧ Performed (takeTransaction rest s) x t := by
  cases hp : s.pending with
  | nil =>
    rw [step_idle hp] at h
    cases h
    exact .inl ⟨rfl, rfl⟩
  | cons x rest =>
    rw [step_perform hp] at h
    refine .inr ⟨x, rest, rfl, ?_⟩
    rcases perform_cases x (takeTransaction rest s) with ⟨-, u, hu, hperf⟩ | ⟨-, r, hr⟩
    · rw [hu] at h
      cases h
      exact hperf
    · rw [hr] at h
      cases h

end Sys2Proof.Machine
end

section
/-! PROOFS. What a command does: its result as a function of the operands it reads, tied to `exec`, and the facts that hold
of every result. -/

namespace Sys2Proof.Machine

/-- The ways a command with defined operands ends: the four ends of `finishOne` and `finishTwo` in one type. -/
inductive CommandResult where
  | fault (c : Cause)
  | range
  | one (v : Word)
  | two (v u : Word)

namespace CommandResult

/-- What a command with one result makes of its kernel's result. -/
def ofOne : KernelResult Word → CommandResult
  | .raise c => .fault c
  | .overflow => .range
  | .value v => .one v

/-- What a command with two results makes of its kernel's result. -/
def ofTwo : KernelResult (Word × Word) → CommandResult
  | .raise c => .fault c
  | .overflow => .range
  | .value (v, u) => .two v u

/-- The state a command leaves that ends so. -/
def finish (r : CommandResult) (s : State) : State :=
  match r with
  | .fault c => takeFault c s
  | .range => reportRange s
  | .one v => completeOne v s
  | .two v u => completeTwo v u s

theorem finish_ofOne (k : KernelResult Word) (s : State) : (ofOne k).finish s = finishOne k s := by
  cases k <;> rfl

theorem finish_ofTwo (k : KernelResult (Word × Word)) (s : State) : (ofTwo k).finish s = finishTwo k s := by
  cases k <;> rfl

/-- The end in the terms of the spec (R24, R30, R31, R206). -/
def Ends (r : CommandResult) (s t : State) : Prop :=
  match r with
  | .fault c => EndsWithFault s t c
  | .range => EndsWithRange s t
  | .one v => EndsWithValue s t v.toNat
  | .two v u => EndsWithTwo s t v.toNat u.toNat

theorem finish_ends (r : CommandResult) (s : State) : r.Ends s (r.finish s) := by
  cases r with
  | fault c => exact takeFault_ends c s
  | range => exact reportRange_ends s
  | one v => exact completeOne_ends v s
  | two v u => exact completeTwo_ends v u s

/-- A command's end has as many results as its row of R24 says, and only a word that selects no command raises
IllegalCommand (R205). -/
def PossibleFor (i : Instr) : CommandResult → Prop
  | .fault c => c ≠ .illegalCommand
  | .range => True
  | .one _ => definesTwo i = false
  | .two _ _ => definesTwo i = true

/-- A result in R0 is at most MAX(W) (R23). -/
def FitsIn (w : Width) : CommandResult → Prop
  | .fault _ | .range => True
  | .one v | .two v _ => v.toNat ≤ maxValue w

/-- The STATUS word that R28 gives this end of a command on a block that is not halted. -/
def statusWord : CommandResult → StatusWord
  | .fault .divideByZero => 0x0004
  | .fault .illegalShift => 0x0008
  | .fault .illegalCommand => 0x000C
  | .range => 0x0001
  | .one _ | .two _ _ => 0x0002

end CommandResult

/-- The result of a command as a function of the registers it reads. `exec_of_determined` ties it to `exec`. -/
def resultOf (i : Instr) (s : State) : CommandResult :=
  match i with
  | .wmul => .ofTwo (.value (limbPair (wmul s.a.val s.b.val)))
  | .wdivrem => .ofTwo (divRem { hi := s.b.val, lo := s.a.val } s.d.val)
  | .rnd m => .ofOne (roundPolicy s.a.val s.d.val s.b.val m)
  | .cvt w => .ofOne (narrow w s.a.val)
  | .muldiv w m => .ofOne (thenNarrow w (mulDiv (view w s.a.val) (view w s.b.val) (view w s.d.val) m))
  | .mulshr w m => .ofOne (thenNarrow w
      (mulShrGuarded s.mulshrBound w (view w s.a.val) (view w s.b.val) (shiftAmount s.d.val) m))
  | .avg w m => .ofOne (average (view w s.a.val) (view w s.b.val) m)
  | .cshl w => .ofOne (ofOption (checkedShl w (view w s.a.val) (shiftAmount s.d.val)))
  | .cshr w => .ofOne (ofOption (checkedShr w (view w s.a.val) (shiftAmount s.d.val)))
  | .clz w => .ofOne (.value (countWord (countLeadingZeros (view w s.a.val).toNat (bitWidth w))))
  | .log2 w m => .ofOne (.value (countWord (log2Of w (view w s.a.val) m)))
  | .log256 w m => .ofOne (.value (countWord (log256Of w (view w s.a.val) m)))

/-- Where the spec determines the outcome, a command ends with its result (R27, R122). -/
theorem exec_of_determined {i : Instr} {s : State} (h : determined i s = true) :
    exec i s = .next ((resultOf i s).finish s) := by
  obtain ⟨hop, hpre⟩ : operandsDefined i s = true ∧ preconditionMet i s = true := by simpa [determined] using h
  cases i <;> refine congrArg Host.Outcome.next
    ((withOperands_defined (by simpa [operandsDefined, and_assoc] using hop)).trans ?_)
  case rnd m =>
    have hlt : s.b.val.toNat < s.d.val.toNat := by simpa [preconditionMet] using hpre
    rw [if_pos (BitVec.lt_def.2 hlt)]
    exact (CommandResult.finish_ofOne _ s).symm
  case wmul => exact (CommandResult.finish_ofTwo _ s).symm
  case wdivrem => exact (CommandResult.finish_ofTwo _ s).symm
  all_goals exact (CommandResult.finish_ofOne _ s).symm

-- Which faults a kernel raises (R201)

theorem exactUpTo_ne_raise (limit n : Nat) (c : Cause) : exactUpTo limit n ≠ .raise c := by
  unfold exactUpTo
  split <;> simp

theorem narrow_ne_raise (w : Width) (v : Word) (c : Cause) : narrow w v ≠ .raise c := by
  unfold narrow
  split <;> simp

theorem thenNarrow_ne_raise (w : Width) {k : KernelResult Word} {c : Cause} (h : k ≠ .raise c) :
    thenNarrow w k ≠ .raise c := by
  cases k with
  | raise c' => exact h
  | overflow => simp [thenNarrow]
  | value v => exact narrow_ne_raise w v c

theorem roundPolicy_ne_raise (q d r : Word) (m : RoundingMode) (c : Cause) : roundPolicy q d r m ≠ .raise c := by
  unfold roundPolicy
  split_ifs <;> simp

theorem ofOption_ne_raise (o : Option Word) (c : Cause) : ofOption o ≠ .raise c := by
  cases o <;> simp [ofOption]

theorem divRem_ne_illegalCommand (n : Wide) (d : Word) : divRem n d ≠ .raise .illegalCommand := by
  rw [divRem_spec]
  split_ifs <;> simp

theorem mulDiv_ne_illegalCommand (a b d : Word) (m : RoundingMode) : mulDiv a b d m ≠ .raise .illegalCommand := by
  by_cases hd : d = 0
  · rw [hd, mulDiv_zero]
    simp
  · rw [mulDiv_spec a b d m hd]
    exact exactUpTo_ne_raise _ _ _

theorem mulShrGuarded_ne_illegalCommand (bound : ShiftBound) (w : Width) (a b : Word) (n : Nat) (m : RoundingMode) :
    mulShrGuarded bound w a b n m ≠ .raise .illegalCommand := by
  rw [mulShrGuarded_spec]
  split
  · simp
  · exact exactUpTo_ne_raise _ _ _

theorem CommandResult.ofOne_possible {i : Instr} {k : KernelResult Word} (hi : definesTwo i = false)
    (hk : k ≠ .raise .illegalCommand) : (ofOne k).PossibleFor i := by
  cases k with
  | raise c => exact fun hc => hk (by rw [hc])
  | overflow => trivial
  | value v => exact hi

theorem CommandResult.ofTwo_possible {i : Instr} {k : KernelResult (Word × Word)} (hi : definesTwo i = true)
    (hk : k ≠ .raise .illegalCommand) : (ofTwo k).PossibleFor i := by
  cases k with
  | raise c => exact fun hc => hk (by rw [hc])
  | overflow => trivial
  | value v => exact hi

theorem resultOf_possible (i : Instr) (s : State) : (resultOf i s).PossibleFor i := by
  cases i with
  | wmul => exact (rfl : definesTwo .wmul = true)
  | wdivrem => exact CommandResult.ofTwo_possible rfl (divRem_ne_illegalCommand _ _)
  | rnd m => exact CommandResult.ofOne_possible rfl (roundPolicy_ne_raise _ _ _ _ _)
  | cvt w => exact CommandResult.ofOne_possible rfl (narrow_ne_raise _ _ _)
  | muldiv w m => exact CommandResult.ofOne_possible rfl (thenNarrow_ne_raise w (mulDiv_ne_illegalCommand _ _ _ _))
  | mulshr w m =>
    exact CommandResult.ofOne_possible rfl (thenNarrow_ne_raise w (mulShrGuarded_ne_illegalCommand _ _ _ _ _ _))
  | avg w m => exact CommandResult.ofOne_possible rfl (by simp [average_spec])
  | cshl w => exact CommandResult.ofOne_possible rfl (ofOption_ne_raise _ _)
  | cshr w => exact CommandResult.ofOne_possible rfl (ofOption_ne_raise _ _)
  | clz w => exact (rfl : definesTwo (.clz w) = false)
  | log2 w m => exact (rfl : definesTwo (.log2 w m) = false)
  | log256 w m => exact (rfl : definesTwo (.log256 w m) = false)

-- Every command, also where the spec does not determine its outcome

/-- RND outside its precondition ends with a range violation or one result, and faults never (R122, log entries 2, 16). -/
theorem completeUnstated_result {i : Instr} (hi : definesTwo i = false) (s : State) :
    ∃ r : CommandResult, r.Ends s (completeUnstated s) ∧ r.PossibleFor i := by
  rcases completeUnstated_cases s with h | ⟨v, h⟩
  · exact ⟨.range, h, trivial⟩
  · exact ⟨.one v, h, hi⟩

/-- What a command that answers has done: something unspecified on a poisoned operand, and otherwise one of its ends. -/
theorem exec_cases {i : Instr} {s t : State} (h : exec i s = .next t) :
    (operandsDefined i s = false ∧ EndsUnspecified s t) ∨
      (operandsDefined i s = true ∧ ∃ r : CommandResult, r.Ends s t ∧ r.PossibleFor i) := by
  cases hd : determined i s
  · cases ending_of_exec h with
    | unspecified hop => exact .inl ⟨hop, unspecifiedOutcome_ends s⟩
    | unstated hop _ hi => exact .inr ⟨hop, completeUnstated_result hi s⟩
    | fault hd' | range hd' | one hd' | two hd' => exact absurd (hd.symm.trans hd') Bool.false_ne_true
  · have hop : operandsDefined i s = true := by
      simp only [determined, Bool.and_eq_true] at hd
      exact hd.1
    rw [exec_of_determined hd] at h
    cases h
    exact .inr ⟨hop, resultOf i s, CommandResult.finish_ends _ s, resultOf_possible i s⟩

/-- The end of a command whose operands are defined. -/
theorem exec_ends {i : Instr} {s t : State} (hop : operandsDefined i s = true) (h : exec i s = .next t) :
    ∃ r : CommandResult, r.Ends s t ∧ r.PossibleFor i := by
  rcases exec_cases h with ⟨hop', -⟩ | ⟨-, hr⟩
  · exact absurd (hop'.symm.trans hop) Bool.false_ne_true
  · exact hr

/-- The end of a command whose outcome the spec determines is its result. -/
theorem exec_ends_resultOf {i : Instr} {s t : State} (hd : determined i s = true) (h : exec i s = .next t) :
    (resultOf i s).Ends s t := by
  rw [exec_of_determined hd] at h
  cases h
  exact CommandResult.finish_ends _ s

-- What holds of every end

theorem halted_eq_false_iff {s : State} : s.halted = false ↔ fcOf s.status = 0 := by
  simp [State.halted]

theorem halted_congr {s t : State} (h : fcOf t.status = fcOf s.status) : t.halted = s.halted := by
  simp [State.halted, h]

/-- Two poisoned registers are not told apart (R26). -/
theorem DataReg.same_of_poisoned {x y : DataReg} (hx : x.poisoned = true) (hy : y.poisoned = true) : x.Same y :=
  ⟨hx.trans hy.symm, fun hf => absurd (hf.symm.trans hx) Bool.false_ne_true⟩

/-- Two defined registers with the same content are not told apart (R26). -/
theorem DataReg.same_of_defined {x y : DataReg} {n : Nat} (hx : x.poisoned = false) (hy : y.poisoned = false)
    (hxn : x.val.toNat = n) (hyn : y.val.toNat = n) : x.Same y :=
  ⟨hx.trans hy.symm, fun _ => BitVec.eq_of_toNat_eq (hxn.trans hyn.symm)⟩

theorem EndsWithFault.halted {s t : State} {c : Cause} (h : EndsWithFault s t c) : t.halted = true := by
  simpa [State.halted, h.fc] using causeCode_ne_zero c

namespace CommandResult.Ends

theorem kept {r : CommandResult} {s t : State} (h : r.Ends s t) : Kept s t := by
  cases r with
  | fault c => exact EndsWithFault.kept h
  | range => exact EndsWithRange.kept h
  | one v => exact EndsWithValue.kept h
  | two v u => exact EndsWithTwo.kept h

/-- A result is defined exactly with VLD = 1 (R26, R28). -/
theorem r0_poisoned {r : CommandResult} {s t : State} (h : r.Ends s t) : t.r0.poisoned = !vldOf t.status := by
  cases r with
  | fault c => rw [EndsWithFault.r0 h, EndsWithFault.vld h]; rfl
  | range => rw [EndsWithRange.r0 h, EndsWithRange.vld h]; rfl
  | one v => rw [EndsWithValue.r0Defined h, EndsWithValue.vld h]; rfl
  | two v u => rw [EndsWithTwo.r0Defined h, EndsWithTwo.vld h]; rfl

/-- The whole STATUS word, from a block that is not halted and whose reserved bits are 0 (R28, R31, R33, R206). -/
theorem status_eq {r : CommandResult} {s t : State} (h : r.Ends s t) (hres : reservedOf s.status = 0)
    (hn : s.halted = false) : t.status = r.statusWord := by
  have hres' : reservedOf t.status = 0 := h.kept.reserved.trans hres
  have hfc := halted_eq_false_iff.1 hn
  rw [← packStatus_fields t.status, hres']
  cases r with
  | fault c =>
    rw [EndsWithFault.fc h, EndsWithFault.vld h, EndsWithFault.ovf h]
    cases c <;> rfl
  | range => rw [EndsWithRange.fc h, EndsWithRange.vld h, EndsWithRange.ovf h, hfc]; rfl
  | one v => rw [EndsWithValue.fc h, EndsWithValue.vld h, EndsWithValue.ovf h, hfc]; rfl
  | two v u => rw [EndsWithTwo.fc h, EndsWithTwo.vld h, EndsWithTwo.ovf h, hfc]; rfl

/-- Equal results from equal FC give equal outcomes, whatever else the two states hold (R20, R133). -/
theorem sameOutcome {r : CommandResult} {s s' t t' : State} (h : r.Ends s t) (h' : r.Ends s' t')
    (hfc : fcOf s.status = fcOf s'.status) : SameOutcome t t' := by
  cases r with
  | fault c =>
    have h : EndsWithFault s t c := h
    have h' : EndsWithFault s' t' c := h'
    exact ⟨DataReg.same_of_poisoned h.r0 h'.r0, DataReg.same_of_poisoned h.r1 h'.r1, h.ovf.trans h'.ovf.symm,
      h.vld.trans h'.vld.symm, h.fc.trans h'.fc.symm⟩
  | range =>
    have h : EndsWithRange s t := h
    have h' : EndsWithRange s' t' := h'
    exact ⟨DataReg.same_of_poisoned h.r0 h'.r0, DataReg.same_of_poisoned h.r1 h'.r1, h.ovf.trans h'.ovf.symm,
      h.vld.trans h'.vld.symm, h.fc.trans (hfc.trans h'.fc.symm)⟩
  | one v =>
    have h : EndsWithValue s t v.toNat := h
    have h' : EndsWithValue s' t' v.toNat := h'
    exact ⟨DataReg.same_of_defined h.r0Defined h'.r0Defined h.r0 h'.r0, DataReg.same_of_poisoned h.r1 h'.r1,
      h.ovf.trans h'.ovf.symm, h.vld.trans h'.vld.symm, h.fc.trans (hfc.trans h'.fc.symm)⟩
  | two v u =>
    have h : EndsWithTwo s t v.toNat u.toNat := h
    have h' : EndsWithTwo s' t' v.toNat u.toNat := h'
    exact ⟨DataReg.same_of_defined h.r0Defined h'.r0Defined h.r0 h'.r0,
      DataReg.same_of_defined h.r1Defined h'.r1Defined h.r1 h'.r1,
      h.ovf.trans h'.ovf.symm, h.vld.trans h'.vld.symm, h.fc.trans (hfc.trans h'.fc.symm)⟩

/-- The content of R0 after a command that ended with VLD = 1 and whose result fits (R23). -/
theorem r0_le {r : CommandResult} {s t : State} {w : Width} (h : r.Ends s t) (hf : r.FitsIn w)
    (hv : vldOf t.status = true) : t.r0.val.toNat ≤ maxValue w := by
  cases r with
  | fault c => exact absurd ((EndsWithFault.vld h).symm.trans hv) Bool.false_ne_true
  | range => exact absurd ((EndsWithRange.vld h).symm.trans hv) Bool.false_ne_true
  | one v => exact (EndsWithValue.r0 h).trans_le hf
  | two v u => exact (EndsWithTwo.r0 h).trans_le hf

end CommandResult.Ends

-- Results fit their width (R23)

/-- At W = 256 every content fits. -/
theorem CommandResult.fitsIn_w256 (r : CommandResult) : r.FitsIn .w256 := by
  have hle (v : Word) : v.toNat ≤ maxValue .w256 := Nat.le_sub_one_of_lt v.isLt
  cases r with
  | fault c => trivial
  | range => trivial
  | one v => exact hle v
  | two v u => exact hle v

theorem narrow_fits (w : Width) (v : Word) : (CommandResult.ofOne (narrow w v)).FitsIn w := by
  unfold narrow
  split
  · trivial
  · rename_i hle
    exact Nat.not_lt.1 hle

theorem thenNarrow_fits (w : Width) (k : KernelResult Word) : (CommandResult.ofOne (thenNarrow w k)).FitsIn w := by
  cases k with
  | raise c => trivial
  | overflow => trivial
  | value v => exact narrow_fits w v

/-- A natural number below 2^W, written to R0. -/
theorem ofNat_fits {w : Width} {n : Nat} (h : n < 2 ^ bitWidth w) :
    (CommandResult.ofOne (.value (BitVec.ofNat 256 n))).FitsIn w := by
  show (BitVec.ofNat 256 n).toNat ≤ maxValue w
  rw [BitVec.toNat_ofNat]
  exact (Nat.mod_le n _).trans (Nat.le_sub_one_of_lt h)

/-- A count or a logarithm is at most W and so below 2^W (R176, R180, R186). -/
theorem countWord_fits {w : Width} {n : Nat} (h : n ≤ bitWidth w) :
    (CommandResult.ofOne (.value (countWord n))).FitsIn w :=
  ofNat_fits (h.trans_lt Nat.lt_two_pow_self)

theorem view_lt (w : Width) (v : Word) : (view w v).toNat < 2 ^ bitWidth w := by
  rw [view_toNat]
  exact viewNat_lt w v

theorem resultOf_fits (i : Instr) (s : State) : (resultOf i s).FitsIn (commandWidth i) := by
  have ha (w : Width) := view_lt w s.a.val
  have hb (w : Width) := view_lt w s.b.val
  cases i with
  | wmul => exact CommandResult.fitsIn_w256 _
  | wdivrem => exact CommandResult.fitsIn_w256 _
  | rnd m => exact CommandResult.fitsIn_w256 _
  | cvt w => exact narrow_fits w _
  | muldiv w m => exact thenNarrow_fits w _
  | mulshr w m => exact thenNarrow_fits w _
  | avg w m =>
    simp only [resultOf, average_spec]
    exact ofNat_fits (rounded_average_lt m (ha w) (hb w))
  | cshl w =>
    simp only [resultOf, checkedShl_spec w _ _ (ha w)]
    split
    · rename_i h
      exact ofNat_fits h.2
    · trivial
  | cshr w =>
    simp only [resultOf, checkedShr_spec w _ _ (ha w)]
    split
    · exact ofNat_fits ((Nat.div_le_self _ _).trans_lt (ha w))
    · trivial
  | clz w =>
    refine countWord_fits (w := w) ?_
    rw [countLeadingZeros_spec w _ (ha w)]
    split <;> omega
  | log2 w m =>
    apply countWord_fits
    rw [log2Of_spec w _ m (ha w)]
    exact exactLog_le 2 _ _ m (by decide) (ha w)
  | log256 w m =>
    apply countWord_fits
    rw [log256Of_spec w _ m (ha w)]
    exact exactLog_le 256 _ _ m (by decide) ((ha w).trans_le (Nat.pow_le_pow_left (by decide) _))

-- What a command sees of its operands (R40)

theorem view_congr {w : Width} {x y : Word} (h : viewNat w x = viewNat w y) : view w x = view w y :=
  BitVec.eq_of_toNat_eq (by rw [view_toNat, view_toNat, h])

theorem resultOf_congr {i : Instr} {s s' : State} (h : SameOperandView i s s') : resultOf i s = resultOf i s' := by
  cases i with
  | wmul =>
    obtain ⟨ha, hb⟩ := h
    simp only [resultOf, ha, hb]
  | wdivrem | rnd m =>
    obtain ⟨ha, hb, hd⟩ := h
    simp only [resultOf, ha, hb, hd]
  | cvt w =>
    have ha : s.a.val = s'.a.val := h
    simp only [resultOf, ha]
  | muldiv w m =>
    obtain ⟨ha, hb, hd⟩ := h
    simp only [resultOf, view_congr ha, view_congr hb, view_congr hd]
  | mulshr w m =>
    obtain ⟨ha, hb, hd, hm⟩ := h
    simp only [resultOf, view_congr ha, view_congr hb, hd, hm]
  | avg w m =>
    obtain ⟨ha, hb⟩ := h
    simp only [resultOf, view_congr ha, view_congr hb]
  | cshl w | cshr w =>
    obtain ⟨ha, hd⟩ := h
    simp only [resultOf, view_congr ha, hd]
  | clz w | log2 w m | log256 w m =>
    have ha : viewNat w s.a.val = viewNat w s'.a.val := h
    simp only [resultOf, view_congr ha]

/-- Equal registers and bound look the same to every command. -/
theorem sameOperandView_of_eq (i : Instr) {s s' : State} (ha : s.a = s'.a) (hb : s.b = s'.b) (hd : s.d = s'.d)
    (hm : s.mulshrBound = s'.mulshrBound) : SameOperandView i s s' := by
  cases i <;> simp [SameOperandView, ha, hb, hd, hm]

/-- Whether the spec determines the outcome is a matter of A, B and D alone (R27, R122). -/
theorem determined_congr (i : Instr) {s s' : State} (ha : s.a = s'.a) (hb : s.b = s'.b) (hd : s.d = s'.d) :
    determined i s = determined i s' := by
  cases i <;> simp only [determined, operandsDefined, preconditionMet, ha, hb, hd]

end Sys2Proof.Machine
end

section
/-! PROOFS. The invariants of the block: which changes of state keep them. -/

namespace Sys2Proof.Machine

/-- The two states agree on all that the invariants speak of. -/
structure SameResults (s t : State) : Prop where
  status : t.status = s.status
  r0 : t.r0 = s.r0
  r1 : t.r1 = s.r1

theorem State.Inv.of_sameResults {s t : State} (hs : s.Inv) (h : SameResults s t) : t.Inv := by
  obtain ⟨hst, h0, h1⟩ := h
  have hh : t.halted = s.halted := halted_congr (by rw [hst])
  exact ⟨by rw [hst]; exact hs.reserved, by rw [hst]; exact hs.fc, by rw [hh, h0, h1]; exact hs.haltedPoisoned,
    by rw [hst, h0, h1]; exact hs.invalidPoisoned⟩

theorem State.Coherent.of_sameResults {s t : State} (hs : s.Coherent) (h : SameResults s t) : t.Coherent :=
  ⟨hs.inv.of_sameResults h, by rw [h.status]; exact hs.status, by rw [h.status, h.r0]; exact hs.validDefined⟩

/-- After RESET the block is coherent (R38). -/
theorem resetBlock_coherent (s : State) : (resetBlock s).Coherent where
  inv :=
    { reserved := (by decide : reservedOf 0 = 0)
      fc := (by decide : (fcOf 0).toNat ≤ 3)
      haltedPoisoned := fun _ => ⟨rfl, rfl⟩
      invalidPoisoned := fun _ => ⟨rfl, rfl⟩ }
  status := List.mem_cons_self
  validDefined := fun h => absurd h (by decide : ¬ vldOf 0 = true)

/-- A state whose FC the command chose among 0 to 3 and whose results are both poisoned has the invariant. -/
theorem State.Inv.of_poisoned {s t : State} (hs : s.Inv) (hk : Kept s t) (hfc : (fcOf t.status).toNat ≤ 3)
    (h0 : t.r0.poisoned = true) (h1 : t.r1.poisoned = true) : t.Inv :=
  ⟨hk.reserved.trans hs.reserved, hfc, fun _ => ⟨h0, h1⟩, fun _ => ⟨h0, h1⟩⟩

/-- A state that was not halted and now has VLD = 1 has the invariant. -/
theorem State.Inv.of_valid {s t : State} (hs : s.Inv) (hn : s.halted = false) (hk : Kept s t)
    (hfc : fcOf t.status = fcOf s.status) (hv : vldOf t.status = true) : t.Inv where
  reserved := hk.reserved.trans hs.reserved
  fc := by rw [hfc]; exact hs.fc
  haltedPoisoned := fun h => absurd (hn.symm.trans ((halted_congr hfc).symm.trans h)) Bool.false_ne_true
  invalidPoisoned := fun h => absurd (h.symm.trans hv) Bool.false_ne_true

/-- Every end of a command keeps the invariant on a block that is not halted. -/
theorem CommandResult.Ends.inv {r : CommandResult} {s t : State} (h : r.Ends s t) (hs : s.Inv)
    (hn : s.halted = false) : t.Inv := by
  cases r with
  | fault c =>
    have h : EndsWithFault s t c := h
    exact hs.of_poisoned h.kept (by rw [h.fc]; exact causeCode_le c) h.r0 h.r1
  | range =>
    have h : EndsWithRange s t := h
    exact hs.of_poisoned h.kept (by rw [h.fc]; exact hs.fc) h.r0 h.r1
  | one v =>
    have h : EndsWithValue s t v.toNat := h
    exact hs.of_valid hn h.kept h.fc h.vld
  | two v u =>
    have h : EndsWithTwo s t v.toNat u.toNat := h
    exact hs.of_valid hn h.kept h.fc h.vld

/-- The words of `statusWord` are among the six that occur (R28). -/
theorem CommandResult.statusWord_mem (r : CommandResult) :
    r.statusWord.toNat ∈ [0x0000, 0x0001, 0x0002, 0x0004, 0x0008, 0x000C] := by
  rcases r with (_ | _ | _) | _ | _ | _ <;> simp [statusWord]

/-- Every end of a command on defined operands keeps coherence on a block that is not halted. -/
theorem CommandResult.Ends.coherent {r : CommandResult} {s t : State} (h : r.Ends s t) (hs : s.Inv)
    (hn : s.halted = false) : t.Coherent where
  inv := h.inv hs hn
  status := by
    rw [h.status_eq hs.reserved hn]
    exact r.statusWord_mem
  validDefined := fun hv => by rw [h.r0_poisoned, hv]; rfl

/-- What an ISSUE that answers has done: nothing on a halted block, something unspecified on a poisoned operand, and
otherwise an end of a command or the fault of an illegal word (R57, R82, R207). -/
theorem issueWord_ends {c : CmdWord} {s t : State} (h : issueWord c s = .next t) :
    t = s ∨ s.halted = false ∧
      ((EndsUnspecified s t ∧ ∃ i, decode c = .ok i ∧ operandsDefined i s = false) ∨
        ∃ r : CommandResult, r.Ends s t) := by
  cases hh : s.halted with
  | true =>
    rw [issueWord_halted hh] at h
    cases h
    exact .inl rfl
  | false =>
    refine .inr ⟨rfl, ?_⟩
    cases hc : decode c with
    | error e =>
      rw [issueWord_illegal hh hc] at h
      cases h
      exact .inr ⟨.fault .illegalCommand, takeFault_ends _ s⟩
    | ok i =>
      rw [issueWord_legal hh hc] at h
      rcases exec_cases h with ⟨hop, hu⟩ | ⟨-, r, hr, -⟩
      · exact .inl ⟨hu, i, rfl, hop⟩
      · exact .inr ⟨r, hr⟩

theorem issueWord_keeps_inv {c : CmdWord} {s t : State} (hs : s.Inv) (h : issueWord c s = .next t) : t.Inv := by
  rcases issueWord_ends h with rfl | ⟨hn, ⟨hu, -⟩ | ⟨r, hr⟩⟩
  · exact hs
  · exact hs.of_poisoned hu.kept hu.fc hu.r0 hu.r1
  · exact hr.inv hs hn

/-- A conforming ISSUE reads no poisoned operand, so its end is specified (R233). -/
theorem issueWord_keeps_coherent {c : CmdWord} {s t : State} (hs : s.Coherent) (hconf : conformingIssue c s = true)
    (h : issueWord c s = .next t) : t.Coherent := by
  rcases issueWord_ends h with rfl | ⟨hn, ⟨-, i, hi, hop⟩ | ⟨r, hr⟩⟩
  · exact hs
  · simp [conformingIssue, hn, hi, determined, hop] at hconf
  · exact hr.coherent hs.inv hn

/-- Every command keeps the transactions still to be performed. -/
theorem issueWord_pending {c : CmdWord} {s t : State} (h : issueWord c s = .next t) : t.pending = s.pending := by
  rcases issueWord_ends h with rfl | ⟨-, ⟨hu, -⟩ | ⟨r, hr⟩⟩
  · rfl
  · exact hu.kept.pending
  · exact hr.kept.pending

namespace Performed

theorem keeps_inv {x : Transaction} {s t : State} (h : Performed s x t) (hs : s.Inv) : t.Inv := by
  cases h with
  | reset => exact (resetBlock_coherent s).inv
  | issue h => exact issueWord_keeps_inv hs h
  | wrCmd h => exact issueWord_keeps_inv hs h
  | wrOperand => exact hs.of_sameResults ⟨rfl, rfl, rfl⟩
  | rd => exact hs.of_sameResults ⟨rfl, rfl, rfl⟩

theorem keeps_coherent {x : Transaction} {s t : State} (h : Performed s x t) (hs : s.Coherent)
    (hconf : conforming x s = true) : t.Coherent := by
  cases h with
  | reset => exact resetBlock_coherent s
  | issue h =>
    simp only [conforming, Bool.and_eq_true] at hconf
    exact issueWord_keeps_coherent hs hconf.2 h
  | wrCmd h =>
    simp only [conforming, Bool.and_eq_true, if_true] at hconf
    exact issueWord_keeps_coherent hs hconf.2 h
  | wrOperand => exact hs.of_sameResults ⟨rfl, rfl, rfl⟩
  | rd => exact hs.of_sameResults ⟨rfl, rfl, rfl⟩

theorem keeps_pending {x : Transaction} {s t : State} (h : Performed s x t) : t.pending = s.pending := by
  cases h with
  | reset => rfl
  | issue h => exact issueWord_pending h
  | wrCmd h => exact issueWord_pending h
  | wrOperand => rfl
  | rd => rfl

end Performed

/-- Taking a transaction from the port changes nothing the invariants speak of. -/
theorem takeTransaction_sameResults (rest : List Transaction) (s : State) : SameResults s (takeTransaction rest s) :=
  ⟨rfl, rfl, rfl⟩

/-- What a conforming host does does not depend on the transactions after it. -/
theorem conforming_takeTransaction (x : Transaction) (rest : List Transaction) (s : State) :
    conforming x (takeTransaction rest s) = conforming x s := rfl

/-- Every list of allowed transactions is performed to its end (R58, R237). -/
theorem run_allowed (l : List Transaction) : ∀ s : State, s.pending = l → (∀ x ∈ l, x.allowed = true) →
    ∃ t : State, Sys2Proof.core.run l.length s = .next t ∧ t.pending = [] := by
  induction l with
  | nil => exact fun s hp _ => ⟨s, rfl, hp⟩
  | cons x rest ih =>
    intro s hp hall
    rcases perform_cases x (takeTransaction rest s) with ⟨-, u, hu, hperf⟩ | ⟨hno, -⟩
    · obtain ⟨t, hrun, ht⟩ := ih u hperf.keeps_pending (fun y hy => hall y (List.mem_cons_of_mem x hy))
      exact ⟨t, run_next ((step_perform hp).trans hu) hrun, ht⟩
    · exact absurd (hno.symm.trans (hall x List.mem_cons_self)) Bool.false_ne_true

end Sys2Proof.Machine
end

section
/-! PROOFS. The statements on the state of the block (spec/10_state.md). -/

namespace Sys2Proof.Machine

/-- Settles O38, from the inversion of a step and the ends of a command. -/
theorem stepKeepsStatusAndPoisonInvariant : Obligations.StepKeepsStatusAndPoisonInvariant := by
  intro s t hs h
  rcases step_cases h with ⟨-, rfl⟩ | ⟨x, rest, -, hperf⟩
  · exact hs
  · exact hperf.keeps_inv (hs.of_sameResults (takeTransaction_sameResults rest s))

/-- Settles O40, from the inversion of a step and the STATUS word of every end of a command. -/
theorem conformingStepKeepsCoherence : Obligations.ConformingStepKeepsCoherence := by
  intro s t hs hconf h
  rcases step_cases h with ⟨-, rfl⟩ | ⟨x, rest, hp, hperf⟩
  · exact hs
  · rw [conformingNext, hp] at hconf
    exact hperf.keeps_coherent (hs.of_sameResults (takeTransaction_sameResults rest s))
      ((conforming_takeTransaction x rest s).trans hconf)

/-- Settles O29: the two endings of a command that the spec does not determine. -/
theorem unspecifiedOutcomeKeepsOperands : Obligations.UnspecifiedOutcomeKeepsOperands := by
  intro i s hd
  obtain ⟨t, ht, hend⟩ := exec_ending i s
  refine ⟨t, ht, ?_⟩
  cases hend with
  | unspecified hop =>
    rw [hop]
    exact unspecifiedOutcome_ends s
  | unstated hop =>
    rw [hop]
    exact completeUnstated_ends s
  | fault hd' | range hd' | one hd' | two hd' => exact absurd (hd.symm.trans hd') Bool.false_ne_true

/-- Settles O30: every end of a command keeps A, B and D. -/
theorem noCommandWritesOperandRegisters : Obligations.NoCommandWritesOperandRegisters := by
  intro i s t h
  have hk : Kept s t := by
    rcases exec_cases h with ⟨-, hu⟩ | ⟨-, r, hr, -⟩
    · exact hu.kept
    · exact hr.kept
  exact ⟨hk.a, hk.b, hk.d⟩

/-- Settles O32, end by end. -/
theorem rangeViolationsAndFaultsNeverMix : Obligations.RangeViolationsAndFaultsNeverMix := by
  intro i s t hop hn h
  obtain ⟨r, hr, hpos⟩ := exec_ends hop h
  cases r with
  | fault c =>
    have hr : EndsWithFault s t c := hr
    simp [hr.halted, hr.ovf, hr.vld, hr.r0, hr.r1]
  | range =>
    have hr : EndsWithRange s t := hr
    simp [(halted_congr hr.fc).trans hn, hr.ovf, hr.vld, hr.r0, hr.r1]
  | one v =>
    have hr : EndsWithValue s t v.toNat := hr
    have hi : definesTwo i = false := hpos
    simp [(halted_congr hr.fc).trans hn, hr.ovf, hr.vld, hr.r0Defined, hr.r1, hi]
  | two v u =>
    have hr : EndsWithTwo s t v.toNat u.toNat := hr
    have hi : definesTwo i = true := hpos
    simp [(halted_congr hr.fc).trans hn, hr.ovf, hr.vld, hr.r0Defined, hr.r1Defined, hi]

/-- Settles O34: every result fits the width the command runs at. -/
theorem resultsFitTheirWidth : Obligations.ResultsFitTheirWidth := by
  intro i s t hd h hv
  exact (exec_ends_resultOf hd h).r0_le (resultOf_fits i s) hv

/-- Settles O35: the result is a function of what the command sees of its operands. -/
theorem upperOperandBitsAreIgnored : Obligations.UpperOperandBitsAreIgnored := by
  intro i s s' t t' hd hd' hview hfc h h'
  have hr' := exec_ends_resultOf hd' h'
  rw [← resultOf_congr hview] at hr'
  exact (exec_ends_resultOf hd h).sameOutcome hr' hfc

/-- Settles O36, as the case of O35 in which the operands are equal. -/
theorem outcomeDependsOnOperandsAlone : Obligations.OutcomeDependsOnOperandsAlone := by
  intro i s s' t t' hdet ha hb hd hm hfc h h'
  exact upperOperandBitsAreIgnored i s s' t t' hdet ((determined_congr i ha hb hd).symm.trans hdet)
    (sameOperandView_of_eq i ha hb hd hm) hfc h h'

/-- Settles O37: the STATUS word of every end that a command can have. -/
theorem statusWordAfterCommand : Obligations.StatusWordAfterCommand := by
  intro i s t hs hn hop h
  obtain ⟨r, hr, hpos⟩ := exec_ends hop h
  have hword : t.status = r.statusWord := hr.status_eq hs.reserved hn
  cases r with
  | fault c =>
    have hr : EndsWithFault s t c := hr
    rw [if_pos hr.halted, hr.fc, hword]
    cases c with
    | divideByZero | illegalShift => decide
    | illegalCommand => exact absurd rfl hpos
  | range =>
    have hr : EndsWithRange s t := hr
    rw [(halted_congr hr.fc).trans hn, hr.vld, hword]
    rfl
  | one v =>
    have hr : EndsWithValue s t v.toNat := hr
    rw [(halted_congr hr.fc).trans hn, hr.vld, hword]
    rfl
  | two v u =>
    have hr : EndsWithTwo s t v.toNat u.toNat := hr
    rw [(halted_congr hr.fc).trans hn, hr.vld, hword]
    rfl

/-- Settles O43, by induction on the pending transactions. -/
theorem allowedTransactionsAllComplete : Obligations.AllowedTransactionsAllComplete :=
  fun s hall => run_allowed s.pending s rfl hall

/-- Settles O8. -/
theorem writeToCmdIsIssue : Obligations.WriteToCmdIsIssue := by
  intro s c rest hp
  calc step s = writeCmd (c.setWidth 256) (takeTransaction rest s) := step_perform hp
    _ = issueWord c (takeTransaction rest s) := writeCmd_setWidth c _
    _ = step { s with pending := .issue c :: rest } :=
      (step_perform (s := { s with pending := .issue c :: rest }) rfl).symm

/-- Settles O13: RD changes no register, whatever the mark. -/
theorem readOfPoisonedRegisterChangesNoRegister : Obligations.ReadOfPoisonedRegisterChangesNoRegister := by
  intro s n r rest hp hmem _
  have hn : n.toNat ≤ 2 ∨ 4 ≤ n.toNat ∧ n.toNat ≤ 6 := by
    simp only [List.mem_cons, Prod.mk.injEq, List.not_mem_nil, or_false] at hmem
    rcases hmem with ⟨rfl, -⟩ | ⟨rfl, -⟩ | ⟨rfl, -⟩ | ⟨rfl, -⟩ | ⟨rfl, -⟩ <;> decide
  obtain ⟨v, k, h⟩ := hostRead_readable hn (takeTransaction rest s)
  exact ⟨v, k, (step_perform hp).trans h⟩

/-- Settles O14. -/
theorem transactionsOutsideTheTableAreRefused : Obligations.TransactionsOutsideTheTableAreRefused := by
  intro s n v rest
  exact ⟨fun hp hn => (step_perform hp).trans (hostWrite_refused hn v _),
    fun hp hn => (step_perform hp).trans (hostRead_refused hn _),
    fun hp hv => (step_perform hp).trans (writeCmd_tooWide hv _)⟩

/-- Settles O41: the state after reset is the state that RESET leaves. -/
theorem resetIsCoherent : Obligations.ResetIsCoherent := resetBlock_coherent State.reset

/-- Settles O39. -/
theorem resetHasStatusAndPoisonInvariant : Obligations.ResetHasStatusAndPoisonInvariant := resetIsCoherent.inv

/-- Settles O16: STATUS is the word 0, and each data register is `DataReg.afterReset`. -/
theorem resetStateMatchesTable : Obligations.ResetStateMatchesTable := by
  refine ⟨?_, ?_, ?_, ?_, ?_, rfl, rfl, rfl, rfl, rfl⟩ <;> decide

end Sys2Proof.Machine
end

section
/-! PROOFS. The statements on the host transactions (spec/20_memory.md): what WR leaves in the register it names, what RD
answers from a register that is not poisoned, and which transaction can change a halted block. -/

namespace Sys2Proof.Machine

-- WR of an operand register (R55)

theorem hostWrite_a (v : Word) (s : State) (hn : s.halted = false) :
    hostWrite 0 v s = .next { s with a := written v } :=
  congrArg Host.Outcome.next (if_neg (Bool.eq_false_iff.1 hn))

theorem hostWrite_b (v : Word) (s : State) (hn : s.halted = false) :
    hostWrite 1 v s = .next { s with b := written v } :=
  congrArg Host.Outcome.next (if_neg (Bool.eq_false_iff.1 hn))

theorem hostWrite_d (v : Word) (s : State) (hn : s.halted = false) :
    hostWrite 2 v s = .next { s with d := written v } :=
  congrArg Host.Outcome.next (if_neg (Bool.eq_false_iff.1 hn))

/-- A halted block ignores WR of an operand register (R55, R207). -/
theorem hostWrite_operand_halted {n : RegNum} (hn : n.toNat ≤ 2) (v : Word) (s : State) (hh : s.halted = true) :
    hostWrite n v s = .next s := by
  obtain ⟨a, b, d, h, hsame⟩ := hostWrite_operand hn v s
  rw [h, hsame hh]

-- RD of a register that is not poisoned (R56)

theorem answerReg_defined {r : DataReg} (hr : r.poisoned = false) (s : State) : answerReg r s = answer r.val s := by
  simp [answerReg, hr]

/-- The data registers RD may name, by number (R35). -/
theorem hostRead_dataReg {n : RegNum} {r : DataReg} {s : State}
    (h : (n, r) ∈ [((0 : RegNum), s.a), (1, s.b), (2, s.d), (4, s.r0), (5, s.r1)]) :
    hostRead n s = .next (answerReg r s) := by
  simp only [List.mem_cons, Prod.mk.injEq, List.not_mem_nil, or_false] at h
  rcases h with ⟨rfl, rfl⟩ | ⟨rfl, rfl⟩ | ⟨rfl, rfl⟩ | ⟨rfl, rfl⟩ | ⟨rfl, rfl⟩ <;> rfl

/-- The step that performs RD of a defined data register changes what the host has read and nothing else. -/
theorem step_rd_defined {s : State} {n : RegNum} {r : DataReg} {rest : List Transaction}
    (hp : s.pending = .rd n :: rest)
    (hmem : (n, r) ∈ [((0 : RegNum), s.a), (1, s.b), (2, s.d), (4, s.r0), (5, s.r1)]) (hr : r.poisoned = false) :
    step s = .next { s with pending := rest, readData := some r.val } :=
  calc step s = hostRead n (takeTransaction rest s) := step_perform hp
    _ = .next (answerReg r (takeTransaction rest s)) := hostRead_dataReg hmem
    _ = .next (answer r.val (takeTransaction rest s)) := by rw [answerReg_defined hr]

-- A halted block (R207, R208)

/-- On a halted block every transaction but RESET changes at most what the host has read and the count of free values
(R55, R56, R207). -/
theorem Performed.reset_or_only_read {x : Transaction} {s t : State} (h : Performed s x t) (hh : s.halted = true) :
    x = .reset ∨ ∃ v k, t = { s with readData := v, draws := k } := by
  have hissue {c : CmdWord} (hc : issueWord c s = .next t) : ∃ v k, t = { s with readData := v, draws := k } := by
    rw [issueWord_halted hh] at hc
    cases hc
    exact ⟨s.readData, s.draws, rfl⟩
  cases h with
  | reset => exact .inl rfl
  | issue hc => exact .inr (hissue hc)
  | wrCmd hc => exact .inr (hissue hc)
  | wrOperand _ _ _ _ hsame => exact .inr ⟨s.readData, s.draws, hsame hh⟩
  | rd v k => exact .inr ⟨some v, k, rfl⟩

-- The statements

/-- Settles O45, from the inversion of a step: an idle step changes nothing, and of the transactions only RESET writes STATUS
on a halted block (R65). -/
theorem onlyResetClearsFaultCause : Obligations.OnlyResetClearsFaultCause := by
  intro s t hh h hfc
  rcases step_cases h with ⟨-, rfl⟩ | ⟨x, rest, hp, hperf⟩
  · exact absurd rfl hfc
  · rcases hperf.reset_or_only_read hh with rfl | ⟨v, k, rfl⟩
    · rw [hp, List.head?_cons]
    · exact absurd rfl hfc

/-- Settles O7. -/
theorem stepRunsDecodedCommand : Obligations.StepRunsDecodedCommand := by
  intro s c rest i hp hn hc
  calc step s = issueWord c (takeTransaction rest s) := step_perform hp
    _ = exec i (takeTransaction rest s) := issueWord_legal hn hc

/-- Settles O11: one rule of WR for each operand register, and one for the halted block. -/
theorem writeSetsOneOperandRegister : Obligations.WriteSetsOneOperandRegister := by
  intro s v rest
  exact ⟨fun hp hn => (step_perform hp).trans (hostWrite_a v (takeTransaction rest s) hn),
    fun hp hn => (step_perform hp).trans (hostWrite_b v (takeTransaction rest s) hn),
    fun hp hn => (step_perform hp).trans (hostWrite_d v (takeTransaction rest s) hn),
    fun _ hle hp hh => (step_perform hp).trans (hostWrite_operand_halted hle v (takeTransaction rest s) hh)⟩

/-- Settles O12: the five data registers by `step_rd_defined`, and STATUS, which has no mark. -/
theorem readReturnsContentAndChangesNothing : Obligations.ReadReturnsContentAndChangesNothing := by
  intro s rest
  exact ⟨fun hp hr => step_rd_defined hp (by simp) hr, fun hp hr => step_rd_defined hp (by simp) hr,
    fun hp hr => step_rd_defined hp (by simp) hr, fun hp hr => step_rd_defined hp (by simp) hr,
    fun hp hr => step_rd_defined hp (by simp) hr, fun hp => step_perform hp⟩

end Sys2Proof.Machine
end

section
/-! PROOFS. The statements on the command words (spec/30_encoding.md): the places of the four fields, the inversion of
the decoder's chain of checks, and from these the legal words, their rows in the opcode map and their number. -/

open Sys2Proof.Machine

namespace Sys2Proof

-- The places of the fields (R71)

theorem fieldsOf_op_toNat (c : CmdWord) : (fieldsOf c).op.toNat = c.toNat % 16 := by
  simp [fieldsOf, BitVec.extractLsb'_toNat]

theorem fieldsOf_wsel_toNat (c : CmdWord) : (fieldsOf c).wsel.toNat = c.toNat / 16 % 8 := by
  simp [fieldsOf, BitVec.extractLsb'_toNat, Nat.shiftRight_eq_div_pow]

theorem fieldsOf_rm_toNat (c : CmdWord) : (fieldsOf c).rm.toNat = c.toNat / 128 % 4 := by
  simp [fieldsOf, BitVec.extractLsb'_toNat, Nat.shiftRight_eq_div_pow]

theorem fieldsOf_zero_toNat (c : CmdWord) : (fieldsOf c).zero.toNat = c.toNat / 512 := by
  have hc := c.isLt
  simp only [fieldsOf, BitVec.extractLsb'_toNat, Nat.shiftRight_eq_div_pow]
  omega

/-- Putting `y` below `x` is adding it to a multiple of its range. -/
theorem toNat_append_eq_add {m n : Nat} (x : BitVec m) (y : BitVec n) :
    (x ++ y).toNat = x.toNat * 2 ^ n + y.toNat := by
  rw [BitVec.toNat_append, ← Nat.shiftLeft_add_eq_or_of_lt y.isLt, Nat.shiftLeft_eq]

theorem packFields_toNat (f : CmdFields) :
    (packFields f).toNat = f.zero.toNat * 512 + f.rm.toNat * 128 + f.wsel.toNat * 16 + f.op.toNat := by
  simp only [packFields, toNat_append_eq_add]
  omega

/-- No bit of a word is outside its four fields. -/
@[simp] theorem packFields_fieldsOf (c : CmdWord) : packFields (fieldsOf c) = c := by
  apply BitVec.eq_of_toNat_eq
  rw [packFields_toNat, fieldsOf_op_toNat, fieldsOf_wsel_toNat, fieldsOf_rm_toNat, fieldsOf_zero_toNat]
  omega

/-- No two fields share a bit. -/
@[simp] theorem fieldsOf_packFields (f : CmdFields) : fieldsOf (packFields f) = f := by
  have hop := f.op.isLt
  have hwsel := f.wsel.isLt
  have hrm := f.rm.isLt
  have hp := packFields_toNat f
  have op : (fieldsOf (packFields f)).op = f.op := BitVec.eq_of_toNat_eq (by rw [fieldsOf_op_toNat]; omega)
  have wsel : (fieldsOf (packFields f)).wsel = f.wsel := BitVec.eq_of_toNat_eq (by rw [fieldsOf_wsel_toNat]; omega)
  have rm : (fieldsOf (packFields f)).rm = f.rm := BitVec.eq_of_toNat_eq (by rw [fieldsOf_rm_toNat]; omega)
  have zero : (fieldsOf (packFields f)).zero = f.zero := BitVec.eq_of_toNat_eq (by rw [fieldsOf_zero_toNat]; omega)
  exact congr (congr (congr (congrArg CmdFields.mk zero) rm) wsel) op

/-- Words and field values are the same thing. -/
theorem packFields_eq_iff {f : CmdFields} {c : CmdWord} : packFields f = c ↔ f = fieldsOf c :=
  ⟨fun h => by rw [← h, fieldsOf_packFields], fun h => by rw [h, packFields_fieldsOf]⟩

/-- AND of two words acts on each field alone. -/
theorem packFields_and (f g : CmdFields) : packFields f &&& packFields g =
    packFields ⟨f.zero &&& g.zero, f.rm &&& g.rm, f.wsel &&& g.wsel, f.op &&& g.op⟩ := by
  show (f.zero ++ f.rm ++ f.wsel ++ f.op) &&& (g.zero ++ g.rm ++ g.wsel ++ g.op) = _
  simp only [BitVec.and_append, packFields]

-- The codes of the width and of the mode (R74, R75)

@[simp] theorem widthOf_wselOf (w : Width) : widthOf (wselOf w) = some w := by cases w <;> rfl

@[simp] theorem modeOf_rmOf (m : RoundingMode) : modeOf (rmOf m) = some m := by cases m <;> rfl

/-- Each width has one code, and WSEL 6 and 7 are none. -/
theorem widthOf_eq_some_iff {wsel : BitVec 3} {w : Width} : widthOf wsel = some w ↔ wselOf w = wsel := by
  constructor
  · cases w <;> revert wsel <;> decide
  · rintro rfl
    exact widthOf_wselOf w

/-- Each mode has one code, and RM 3 is none. -/
theorem modeOf_eq_some_iff {rm : BitVec 2} {m : RoundingMode} : modeOf rm = some m ↔ rmOf m = rm := by
  constructor
  · cases m <;> revert rm <;> decide
  · rintro rfl
    exact modeOf_rmOf m

theorem exists_widthOf_iff {wsel : BitVec 3} : (∃ w, widthOf wsel = some w) ↔ wsel.toNat ≤ 5 := by
  rw [← Option.isSome_iff_exists]
  revert wsel
  decide

theorem exists_modeOf_iff {rm : BitVec 2} : (∃ m, modeOf rm = some m) ↔ rm.toNat ≤ 2 := by
  rw [← Option.isSome_iff_exists]
  revert rm
  decide

-- The fields of a command (R76, R77)

/-- The OP of a command (R77). -/
def opOf (i : Instr) : BitVec 4 := (encodeFields i).op

/-- The mode a command runs under: its RM, which is 0 where R76 fixes it. -/
def commandMode : Instr → RoundingMode
  | .wmul | .wdivrem | .cvt _ | .cshl _ | .cshr _ | .clz _ => .down
  | .rnd m | .muldiv _ m | .mulshr _ m | .avg _ m | .log2 _ m | .log256 _ m => m

/-- The encoder writes the codes of the command's own width, mode and row. -/
theorem encodeFields_eq (i : Instr) :
    encodeFields i = { zero := 0, rm := rmOf (commandMode i), wsel := wselOf (commandWidth i), op := opOf i } := by
  cases i <;> rfl

/-- The commands of which R78 requires WSEL = 5 run at width 256. -/
theorem commandWidth_of_needsWidth256 {i : Instr} (h : needsWidth256 (opOf i) = true) : commandWidth i = .w256 := by
  cases i with
  | wmul | wdivrem | rnd => rfl
  | cvt | muldiv | mulshr | avg | cshl | cshr | clz | log2 | log256 => exact absurd h Bool.false_ne_true

/-- The commands of which R78 requires RM = 0 run under Down. -/
theorem commandMode_of_needsModeZero {i : Instr} (h : needsModeZero (opOf i) = true) : commandMode i = .down := by
  cases i with
  | wmul | wdivrem | cvt | cshl | cshr | clz => rfl
  | rnd | muldiv | mulshr | avg | log2 | log256 => exact absurd h Bool.false_ne_true

/-- The encoder's fields are legal (R76, R81), by the law of each command. -/
theorem encodeFields_wellFormed (i : Instr) : (encodeFields i).wellFormed = true := by
  cases i with
  | wmul => exact Laws.EncodesLegally.wmul
  | wdivrem => exact Laws.EncodesLegally.wdivrem
  | rnd m => exact Laws.EncodesLegally.rnd m
  | cvt w => exact Laws.EncodesLegally.cvt w
  | muldiv w m => exact Laws.EncodesLegally.muldiv w m
  | mulshr w m => exact Laws.EncodesLegally.mulshr w m
  | avg w m => exact Laws.EncodesLegally.avg w m
  | cshl w => exact Laws.EncodesLegally.cshl w
  | cshr w => exact Laws.EncodesLegally.cshr w
  | clz w => exact Laws.EncodesLegally.clz w
  | log2 w m => exact Laws.EncodesLegally.log2 w m
  | log256 w m => exact Laws.EncodesLegally.log256 w m

-- The row of OP (R77)

@[simp] theorem selectRow_opOf (i : Instr) : selectRow (opOf i) (commandWidth i) (commandMode i) = .ok i := by
  cases i <;> rfl

theorem opOf_of_selectRow {op : BitVec 4} {w : Width} {m : RoundingMode} {i : Instr} (h : selectRow op w m = .ok i) :
    op = opOf i := by
  unfold selectRow at h
  split at h <;> cases h <;> exact BitVec.eq_of_toNat_eq ‹_›

/-- A row takes its free fields from the word, and its fixed ones are as the checks of R78 require. -/
theorem fields_of_selectRow {op : BitVec 4} {w : Width} {m : RoundingMode} {i : Instr}
    (hw : needsWidth256 op = true → w = .w256) (hm : needsModeZero op = true → m = .down)
    (h : selectRow op w m = .ok i) : op = opOf i ∧ w = commandWidth i ∧ m = commandMode i := by
  obtain rfl := opOf_of_selectRow h
  cases i with
  | wmul | wdivrem => exact ⟨rfl, hw rfl, hm rfl⟩
  | rnd =>
    cases h
    exact ⟨rfl, hw rfl, rfl⟩
  | cvt | cshl | cshr | clz =>
    cases h
    exact ⟨rfl, rfl, hm rfl⟩
  | muldiv | mulshr | avg | log2 | log256 =>
    cases h
    exact ⟨rfl, rfl, rfl⟩

/-- A row selects a command exactly where the table of R76 has an entry. -/
theorem exists_selectRow_iff {op : BitVec 4} {w : Width} {m : RoundingMode} :
    (∃ i, selectRow op w m = .ok i) ↔ (fieldUse op).isSome = true := by
  unfold selectRow fieldUse
  split <;> simp [*]

-- The chain of checks (R78) and its table (R76, R81)

/-- What a word that passes every check of R78 satisfies. -/
theorem decodeFields_eq_ok_iff {f : CmdFields} {i : Instr} : decodeFields f = .ok i ↔
    f.zero = 0 ∧ ∃ w m, widthOf f.wsel = some w ∧ modeOf f.rm = some m ∧
      (needsWidth256 f.op = true → w = .w256) ∧ (needsModeZero f.op = true → m = .down) ∧
      selectRow f.op w m = .ok i := by
  unfold decodeFields
  cases widthOf f.wsel with
  | none => simp [ite_eq_iff]
  | some w =>
    cases modeOf f.rm with
    | none => simp [ite_eq_iff]
    | some m => simp [ite_eq_iff]

/-- The decoder undoes the encoder on the fields and accepts nothing else. -/
theorem decodeFields_eq_ok_iff_encodeFields {f : CmdFields} {i : Instr} :
    decodeFields f = .ok i ↔ encodeFields i = f := by
  rw [decodeFields_eq_ok_iff]
  constructor
  · rintro ⟨hzero, w, m, hwsel, hrm, hw, hm, hrow⟩
    obtain ⟨hop, rfl, rfl⟩ := fields_of_selectRow hw hm hrow
    rw [encodeFields_eq, ← hzero, ← hop, widthOf_eq_some_iff.1 hwsel, modeOf_eq_some_iff.1 hrm]
  · rintro rfl
    rw [encodeFields_eq]
    exact ⟨rfl, commandWidth i, commandMode i, widthOf_wselOf _, modeOf_rmOf _, commandWidth_of_needsWidth256,
      commandMode_of_needsModeZero, selectRow_opOf i⟩

/-- Where the table of R76 has an entry, it fixes WSEL and RM for the commands that R78 lists, and for no others. -/
theorem fieldUse_eq : ∀ op : BitVec 4, (fieldUse op).isSome = true →
    fieldUse op = some ⟨!needsWidth256 op, !needsModeZero op⟩ := by decide

theorem zeroClear_iff {f : CmdFields} : f.zeroClear = true ↔ f.zero = 0 := beq_iff_eq

theorem widthDefined_iff {f : CmdFields} : f.widthDefined = true ↔ f.wsel.toNat ≤ 5 := decide_eq_true_iff

theorem modeDefined_iff {f : CmdFields} : f.modeDefined = true ↔ f.rm.toNat ≤ 2 := by
  have hcodes : ∀ rm : BitVec 2, (rm != 3) = true ↔ rm.toNat ≤ 2 := by decide
  exact hcodes f.rm

theorem widthAllowed_iff {f : CmdFields} (h : f.opDefined = true) :
    f.widthAllowed = true ↔ (needsWidth256 f.op = true → f.wsel = 5) := by
  rw [CmdFields.widthAllowed, fieldUse_eq f.op h]
  cases needsWidth256 f.op <;> simp

theorem modeAllowed_iff {f : CmdFields} (h : f.opDefined = true) :
    f.modeAllowed = true ↔ (needsModeZero f.op = true → f.rm = 0) := by
  rw [CmdFields.modeAllowed, fieldUse_eq f.op h]
  cases needsModeZero f.op <;> simp

/-- The table of field use in the terms of the decoder (R76, R78, R81). -/
theorem wellFormed_iff {f : CmdFields} : f.wellFormed = true ↔
    f.zero = 0 ∧ (fieldUse f.op).isSome = true ∧ f.wsel.toNat ≤ 5 ∧ f.rm.toNat ≤ 2 ∧
      (needsWidth256 f.op = true → f.wsel = 5) ∧ (needsModeZero f.op = true → f.rm = 0) := by
  simp only [CmdFields.wellFormed, Bool.and_eq_true, zeroClear_iff, widthDefined_iff, modeDefined_iff, and_assoc]
  exact and_congr_right fun _ => and_congr_right fun hop => by rw [widthAllowed_iff hop, modeAllowed_iff hop]

/-- The decoder accepts the fields that the table allows. -/
theorem exists_decodeFields_iff {f : CmdFields} : (∃ i, decodeFields f = .ok i) ↔ f.wellFormed = true := by
  constructor
  · rintro ⟨i, h⟩
    rw [← decodeFields_eq_ok_iff_encodeFields.1 h]
    exact encodeFields_wellFormed i
  · intro h
    obtain ⟨hzero, hop, hwsel, hrm, hw, hm⟩ := wellFormed_iff.1 h
    obtain ⟨w, hwidth⟩ := exists_widthOf_iff.2 hwsel
    obtain ⟨m, hmode⟩ := exists_modeOf_iff.2 hrm
    obtain ⟨i, hrow⟩ := exists_selectRow_iff.2 hop
    refine ⟨i, decodeFields_eq_ok_iff.2 ⟨hzero, w, m, hwidth, hmode, fun hn => ?_, fun hn => ?_, hrow⟩⟩
    · rw [hw hn] at hwidth
      cases hwidth
      rfl
    · rw [hm hn] at hmode
      cases hmode
      rfl

/-- A word decodes to the command whose encoding it is. -/
theorem decode_eq_ok_iff {c : CmdWord} {i : Instr} : decode c = .ok i ↔ encode i = c :=
  decodeFields_eq_ok_iff_encodeFields.trans packFields_eq_iff.symm

@[simp] theorem decode_encode (i : Instr) : decode (encode i) = .ok i := decode_eq_ok_iff.2 rfl

theorem encode_injective : Function.Injective encode := by
  intro i j h
  have hj : decode (encode i) = .ok j := decode_eq_ok_iff.2 h.symm
  rw [decode_encode] at hj
  cases hj
  rfl

theorem encodeFields_of_decode {c : CmdWord} {i : Instr} (h : decode c = .ok i) : encodeFields i = fieldsOf c :=
  decodeFields_eq_ok_iff_encodeFields.1 h

-- The columns match and mask (R77)

/-- The fields of the column match for a row: a fixed field holds its value, and a free field is 0. -/
def matchFields (op : BitVec 4) : CmdFields :=
  { zero := 0, rm := 0, wsel := if needsWidth256 op then 5 else 0, op := op }

/-- The fields of the column mask for a row: all ones in a fixed field, and 0 in a free one. -/
def maskFields (op : BitVec 4) : CmdFields :=
  { zero := .allOnes 7, rm := if needsModeZero op then .allOnes 2 else 0,
    wsel := if needsWidth256 op then .allOnes 3 else 0, op := .allOnes 4 }

/-- The columns of R77 are the words of these fields. -/
theorem tableRow_eq (i : Instr) :
    Certificates.tableRow i = (packFields (matchFields (opOf i)), packFields (maskFields (opOf i))) := by
  cases i <;> simp only [Certificates.tableRow, opOf, encodeFields] <;> decide

/-- Each OP value has a row of its own. -/
theorem tableRow_eq_iff {i j : Instr} : Certificates.tableRow j = Certificates.tableRow i ↔ opOf j = opOf i := by
  rw [tableRow_eq, tableRow_eq]
  constructor
  · intro h
    have hmatch : matchFields (opOf j) = matchFields (opOf i) := by
      simpa using packFields_eq_iff.1 (Prod.mk.inj h).1
    exact (CmdFields.mk.inj hmatch).2.2.2
  · intro h
    rw [h]

/-- Under its mask a field that is fixed is compared, and a field that is free is not. -/
theorem and_mask_field_iff {n : Nat} {fixed : Bool} {x v : BitVec n} :
    x &&& (if fixed then .allOnes n else 0) = (if fixed then v else 0) ↔ (fixed = true → x = v) := by
  cases fixed <;> simp

/-- `(c AND mask) = match` in terms of the fields. -/
theorem and_mask_eq_match_iff {c : CmdWord} {op : BitVec 4} :
    c &&& packFields (maskFields op) = packFields (matchFields op) ↔
      (fieldsOf c).zero = 0 ∧ (needsModeZero op = true → (fieldsOf c).rm = 0) ∧
        (needsWidth256 op = true → (fieldsOf c).wsel = 5) ∧ (fieldsOf c).op = op := by
  rw [← packFields_fieldsOf c, packFields_and, packFields_eq_iff, fieldsOf_packFields, fieldsOf_packFields]
  have hrm := and_mask_field_iff (fixed := needsModeZero op) (x := (fieldsOf c).rm) (v := 0)
  rw [ite_self] at hrm
  simp only [matchFields, maskFields, CmdFields.mk.injEq, BitVec.and_allOnes, and_mask_field_iff, hrm]

/-- The words of a row are the legal ones with its OP. -/
theorem exists_decode_in_row_iff {c : CmdWord} {i : Instr} :
    (∃ j, decode c = .ok j ∧ Certificates.tableRow j = Certificates.tableRow i) ↔
      (fieldsOf c).wellFormed = true ∧ (fieldsOf c).op = opOf i := by
  constructor
  · rintro ⟨j, hj, hrow⟩
    exact ⟨exists_decodeFields_iff.1 ⟨j, hj⟩,
      (congrArg CmdFields.op (encodeFields_of_decode hj)).symm.trans (tableRow_eq_iff.1 hrow)⟩
  · rintro ⟨hlegal, hop⟩
    obtain ⟨j, hj⟩ := exists_decodeFields_iff.2 hlegal
    exact ⟨j, hj, tableRow_eq_iff.2 ((congrArg CmdFields.op (encodeFields_of_decode hj)).trans hop)⟩

theorem opOf_defined (i : Instr) : (fieldUse (opOf i)).isSome = true :=
  (wellFormed_iff.1 (encodeFields_wellFormed i)).2.1

-- The legal words (R87)

/-- The six widths. -/
def widths : List Width := [.w8, .w16, .w32, .w64, .w128, .w256]

/-- The three modes. -/
def modes : List RoundingMode := [.down, .up, .nearest]

/-- The commands of a row with both fields free. -/
def inEachWidthAndMode (f : Width → RoundingMode → Instr) : List Instr := widths.flatMap fun w => modes.map (f w)

/-- Every command, row by row. -/
def commands : List Instr :=
  [.wmul, .wdivrem] ++ modes.map .rnd ++ widths.map .cvt ++ inEachWidthAndMode .muldiv ++ inEachWidthAndMode .mulshr ++
    inEachWidthAndMode .avg ++ widths.map .cshl ++ widths.map .cshr ++ widths.map .clz ++ inEachWidthAndMode .log2 ++
    inEachWidthAndMode .log256

theorem mem_widths (w : Width) : w ∈ widths := by cases w <;> decide

theorem mem_modes (m : RoundingMode) : m ∈ modes := by cases m <;> decide

theorem mem_commands (i : Instr) : i ∈ commands := by
  cases i <;> simp [commands, inEachWidthAndMode, mem_widths, mem_modes]

theorem commands_nodup : commands.Nodup := by decide +kernel

/-- The number of commands in a row: one for each code of its free fields (R76). -/
def rowSize (op : BitVec 4) : Nat :=
  (if needsWidth256 op then 1 else widths.length) * (if needsModeZero op then 1 else modes.length)

theorem length_commands_of_op : ∀ op : BitVec 4, (fieldUse op).isSome = true →
    (commands.filter fun j => decide (opOf j = op)).length = rowSize op := by decide

/-- The encodings of the commands are the legal words. -/
theorem mem_words_iff {c : CmdWord} : c ∈ commands.map encode ↔ ∃ i, decode c = .ok i := by
  simp only [List.mem_map, mem_commands, true_and, decode_eq_ok_iff]

-- The statements

/-- Settles O1, by the inversion of the chain of checks and the places of the fields. -/
theorem decodeAndEncodeAreInverse : Obligations.DecodeAndEncodeAreInverse := fun _ _ => decode_eq_ok_iff

/-- Settles O3: both sides say that the word is legal and has the OP of the row. -/
theorem decodedRowIsSelectedByMatchAndMask : Obligations.DecodedRowIsSelectedByMatchAndMask := by
  constructor
  · intro c i
    rw [exists_decode_in_row_iff, wellFormed_iff, tableRow_eq, and_mask_eq_match_iff]
    constructor
    · rintro ⟨⟨hzero, -, hwsel, hrm, hw, hm⟩, hop⟩
      rw [hop] at hw hm
      exact ⟨⟨hzero, hm, hw, hop⟩, hwsel, hrm⟩
    · rintro ⟨⟨hzero, hm, hw, hop⟩, hwsel, hrm⟩
      rw [hop]
      exact ⟨⟨hzero, opOf_defined i, hwsel, hrm, hw, hm⟩, rfl⟩
  · intro c hreserved hlegal
    have hnone : ∀ op : BitVec 4, op.toNat ∈ [0x0, 0xD, 0xE, 0xF] → (fieldUse op).isSome = false := by decide
    obtain ⟨-, hop, -⟩ := wellFormed_iff.1 (exists_decodeFields_iff.1 hlegal)
    exact Bool.false_ne_true ((hnone _ hreserved).symm.trans hop)

/-- Settles O4. -/
theorem decoderAcceptsExactlyLegalFields : Obligations.DecoderAcceptsExactlyLegalFields :=
  fun _ => exists_decodeFields_iff

/-- Settles O5 with the encodings of all commands. -/
theorem legalWordCounts : Obligations.LegalWordCounts := by
  refine ⟨commands.map encode, commands_nodup.map encode_injective, fun c => mem_words_iff, by decide, fun i => ?_⟩
  simp only [List.filter_map, List.length_map, Function.comp_def, decode_encode, tableRow_eq_iff]
  rw [length_commands_of_op (opOf i) (opOf_defined i)]
  cases i <;> rfl

/-- Settles O2. -/
theorem wordFieldLayout : Obligations.WordFieldLayout := by
  refine ⟨fun c => ⟨fieldsOf_op_toNat c, fieldsOf_wsel_toNat c, fieldsOf_rm_toNat c, fieldsOf_zero_toNat c⟩,
    fun f hzero => ?_⟩
  rw [packFields_toNat, hzero]
  simp

/-- Settles O6: each word is the encoding of its command. -/
theorem writtenOutWordsDecode : Obligations.WrittenOutWordsDecode := by
  unfold Obligations.WrittenOutWordsDecode
  simp only [decode_eq_ok_iff]
  decide

/-- Settles O9: the step takes the fault. -/
theorem illegalWordRaisesIllegalCommand : Obligations.IllegalWordRaisesIllegalCommand := by
  intro s c rest hp hn hillegal
  cases hc : decode c with
  | ok i => exact absurd ⟨i, hc⟩ hillegal
  | error e =>
    have hstep : step s = .next (takeFault .illegalCommand (takeTransaction rest s)) :=
      (step_perform hp).trans (issueWord_illegal hn hc)
    exact ⟨_, hstep, takeFault_ends .illegalCommand _, takeFault_halted .illegalCommand _⟩

end Sys2Proof
end

section
/-! PROOFS. The statements on the wide integer unit (spec/40_wide_integer.md): the bounds inside the multiplier, the
outcomes of the divider told apart by the high limb, and from these WMUL, WDIVREM and their round trip. -/

namespace Sys2Proof.Machine

-- WideUint values (R100)

/-- The low limb of a WideUint is its value modulo 2^256 (R100). -/
theorem wide_lo (n : Wide) : n.lo.toNat = n.val % 2 ^ 256 := by
  have := n.lo.isLt
  simp only [Wide.val]
  omega

/-- A WideUint is determined by its value (R100). -/
theorem wide_eq_of_val {m n : Wide} (h : m.val = n.val) : m = n := by
  have hhi : m.hi = n.hi := BitVec.eq_of_toNat_eq (by rw [wide_hi, wide_hi, h])
  have hlo : m.lo = n.lo := BitVec.eq_of_toNat_eq (by rw [wide_lo, wide_lo, h])
  calc m = ⟨m.hi, m.lo⟩ := rfl
    _ = ⟨n.hi, n.lo⟩ := by rw [hhi, hlo]

-- The multiplier (R101, R103, R104)

/-- The product of two limbs is at most (2^128 − 1)² (R103 b). -/
theorem partialProduct_le {x y : Nat} (hx : x < 2 ^ 128) (hy : y < 2 ^ 128) : x * y ≤ 2 ^ 256 - 2 ^ 129 + 1 :=
  calc x * y ≤ (2 ^ 128 - 1) * (2 ^ 128 - 1) := Nat.mul_le_mul (Nat.le_sub_one_of_lt hx) (Nat.le_sub_one_of_lt hy)
    _ = 2 ^ 256 - 2 ^ 129 + 1 := by norm_num

/-- The high half of a partial product leaves room for a carry (R103 b). -/
theorem halfHi_le_of_partialProduct {p : Nat} (h : p ≤ 2 ^ 256 - 2 ^ 129 + 1) : halfHi p ≤ 2 ^ 128 - 2 := by
  simp only [halfHi]
  omega

theorem halfLo_le (p : Nat) : halfLo p ≤ 2 ^ 128 - 1 := Nat.le_sub_one_of_lt (halfLo_lt p)

/-- A diagonal within its bound carries at most 2 (R103 c, d). -/
theorem carry_le_two {s : Nat} (h : s ≤ 3 * 2 ^ 128 - 3) : halfHi s ≤ 2 := by
  simp only [halfHi]
  omega

theorem diagonal1_le {p0 : Nat} (p1 p2 : Nat) (h0 : halfHi p0 ≤ 2 ^ 128 - 2) :
    diagonal1 p0 p1 p2 ≤ 3 * 2 ^ 128 - 4 := by
  have h1 := halfLo_lt p1
  have h2 := halfLo_lt p2
  simp only [diagonal1]
  omega

theorem diagonal2_le {p1 p2 c1 : Nat} (p3 : Nat) (h1 : halfHi p1 ≤ 2 ^ 128 - 2) (h2 : halfHi p2 ≤ 2 ^ 128 - 2)
    (hc : c1 ≤ 2) : diagonal2 p1 p2 p3 c1 ≤ 3 * 2 ^ 128 - 3 := by
  have h3 := halfLo_lt p3
  simp only [diagonal2]
  omega

/-- The final carry is 0, because the limbs with it make a product, which is below 2^512 (R103 e, R104). -/
theorem finalCarry_eq_zero (a b : Word) : (productLimbs a b).getLast? = some 0 := by
  obtain ⟨l0, l1, l2, l3, c, he, -, -, -, -, hsum⟩ := combineProducts_sum
    (halfLo a.toNat * halfLo b.toNat) (halfLo a.toNat * halfHi b.toNat)
    (halfHi a.toNat * halfLo b.toNat) (halfHi a.toNat * halfHi b.toNat)
  rw [partialProducts_sum] at hsum
  have hlt := product_lt a b
  have hc : c = 0 := by omega
  have hlimbs : productLimbs a b = [l0, l1, l2, l3, c] := he
  rw [hlimbs, hc]
  rfl

theorem wmul_maxC : wmul maxC maxC = { hi := BitVec.ofNat 256 (2 ^ 256 - 2), lo := 1 } :=
  wide_eq_of_val (by rw [wmul_val, maxC_toNat]; decide)

theorem wmul_comm (a b : Word) : wmul a b = wmul b a :=
  wide_eq_of_val (by rw [wmul_val, wmul_val, Nat.mul_comm])

theorem wmul_zero (a : Word) : wmul a 0 = { hi := 0, lo := 0 } :=
  wide_eq_of_val (by rw [wmul_val]; rfl)

theorem wmul_one (a : Word) : wmul a 1 = { hi := 0, lo := a } :=
  wide_eq_of_val (by rw [wmul_val]; simp [Wide.val])

-- The divider (R105, R106)

/-- From a remainder below the divisor the next one before subtraction is below twice the divisor (R106 a). -/
theorem shiftInBit_le {rem d : Nat} (n i : Nat) (h : rem < d) : shiftInBit n rem i ≤ 2 * d - 1 := by
  rw [shiftInBit_eq]
  omega

theorem divRem_zero (n : Wide) : divRem n 0 = .raise .divideByZero := if_pos rfl

/-- A divisor that is at most the high limb gives overflow (R106 c). -/
theorem divRem_of_le_hi {n : Wide} {d : Word} (h0 : d ≠ 0) (h : d.toNat ≤ n.hi.toNat) : divRem n d = .overflow := by
  have hbig : ¬ n.val / d.toNat < 2 ^ 256 := fun hq => Nat.not_lt.2 h ((quotient_fits_iff n d h0).1 hq)
  rw [divRem_spec, if_neg h0, if_neg hbig]

/-- A divisor above the high limb gives the exact quotient and remainder, in one limb each (R106 c, d). -/
theorem divRem_of_hi_lt {n : Wide} {d : Word} (h : n.hi.toNat < d.toNat) :
    ∃ q r, divRem n d = .value (q, r) ∧ q.toNat = n.val / d.toNat ∧ r.toNat = n.val % d.toNat := by
  have h0 : d ≠ 0 := by
    rintro rfl
    exact Nat.not_lt_zero _ h
  have hq : n.val / d.toNat < 2 ^ 256 := (quotient_fits_iff n d h0).2 h
  have hr : n.val % d.toNat < 2 ^ 256 := (Nat.mod_lt _ (toNat_pos h0)).trans d.isLt
  exact ⟨BitVec.ofNat 256 (n.val / d.toNat), BitVec.ofNat 256 (n.val % d.toNat),
    by rw [divRem_spec, if_neg h0, if_pos hq],
    by rw [BitVec.toNat_ofNat, Nat.mod_eq_of_lt hq], by rw [BitVec.toNat_ofNat, Nat.mod_eq_of_lt hr]⟩

/-- The divider overflows exactly when the high limb is at least the divisor (R106 c). -/
theorem divRem_eq_overflow_iff {n : Wide} {d : Word} (h0 : d ≠ 0) : divRem n d = .overflow ↔ d.toNat ≤ n.hi.toNat := by
  refine ⟨fun ho => Nat.le_of_not_lt fun hlt => ?_, divRem_of_le_hi h0⟩
  obtain ⟨q, r, hv, -⟩ := divRem_of_hi_lt hlt
  rw [hv] at ho
  cases ho

-- The commands

/-- Where the spec determines the outcome, a command answers a next state and ends there with its result. -/
theorem exists_exec_ends_resultOf {i : Instr} {s : State} (h : determined i s = true) :
    ∃ t, exec i s = .next t ∧ (resultOf i s).Ends s t :=
  ⟨_, exec_of_determined h, CommandResult.finish_ends _ s⟩

-- The statements

/-- Settles O46, clause by clause in the order of R103. -/
theorem multiplierFacts : Obligations.MultiplierFacts := by
  refine ⟨wmul_val, fun x y hx hy => ?_, fun p0 p1 p2 h0 => ?_, fun p1 p2 p3 c1 h1 h2 hc => ?_,
    finalCarry_eq_zero, wmul_maxC, wmul_comm, wmul_zero, wmul_one⟩
  · have hp := partialProduct_le hx hy
    exact ⟨hp, halfHi_le_of_partialProduct hp, halfLo_le _⟩
  · have hs := diagonal1_le p1 p2 h0
    exact ⟨hs, carry_le_two (by omega)⟩
  · have hs := diagonal2_le p3 h1 h2 hc
    exact ⟨hs, carry_le_two hs⟩

/-- Settles O47. -/
theorem dividerFacts : Obligations.DividerFacts := by
  intro n d h0
  refine ⟨fun rem i hrem => ?_, divRem_eq_overflow_iff h0, fun hlt => ?_⟩
  · have hle := shiftInBit_le n.val i hrem
    have hd := d.isLt
    exact ⟨hle, by omega⟩
  · obtain ⟨q, r, hv, hq, hr⟩ := divRem_of_hi_lt hlt
    refine ⟨q, r, hv, ?_, ?_⟩
    · rw [hq, hr, Nat.div_add_mod']
    · rw [hr]
      exact Nat.mod_lt _ (toNat_pos h0)

/-- Settles O17: the two limbs of the exact product. -/
theorem wmulWritesExactProduct : Obligations.WmulWritesExactProduct := by
  refine ⟨decode_encode .wmul, fun s ha hb => ?_⟩
  obtain ⟨t, ht, hend⟩ := exists_exec_ends_resultOf (i := .wmul) (s := s)
    (by simp [determined, operandsDefined, preconditionMet, ha, hb])
  have hend : EndsWithTwo s t (wmul s.a.val s.b.val).lo.toNat (wmul s.a.val s.b.val).hi.toNat := hend
  rw [wmul_lo, wmul_hi] at hend
  exact ⟨t, ht, hend⟩

/-- Settles O18: one case for each outcome of the divider. -/
theorem wdivremDividesOrReports : Obligations.WdivremDividesOrReports := by
  refine ⟨decode_encode .wdivrem, fun s ha hb hd => ?_⟩
  obtain ⟨t, ht, hend⟩ := exists_exec_ends_resultOf (i := .wdivrem) (s := s)
    (by simp [determined, operandsDefined, preconditionMet, ha, hb, hd])
  refine ⟨t, ht, ?_⟩
  have hend : (CommandResult.ofTwo (divRem ⟨s.b.val, s.a.val⟩ s.d.val)).Ends s t := hend
  split_ifs with h0 hle
  · have hzero : s.d.val = 0 := BitVec.eq_of_toNat_eq h0
    rw [hzero, divRem_zero] at hend
    exact hend
  · have hne : s.d.val ≠ 0 := fun h => h0 (by rw [h]; rfl)
    rw [divRem_of_le_hi hne hle] at hend
    exact hend
  · obtain ⟨q, r, hv, hq, hr⟩ := divRem_of_hi_lt (n := ⟨s.b.val, s.a.val⟩) (Nat.lt_of_not_le hle)
    rw [hv] at hend
    have hend : EndsWithTwo s t q.toNat r.toNat := hend
    rw [hq, hr] at hend
    exact hend

/-- Settles O49: the numerator is a·b, whose high limb is below a, so the quotient is b and nothing remains. -/
theorem multiplyThenDivideRoundTrip : Obligations.MultiplyThenDivideRoundTrip := by
  intro s t s' ha hb hne h hsa hsb hsd
  obtain ⟨u, hu, hmul⟩ := wmulWritesExactProduct.2 s ha hb
  obtain rfl : u = t := by
    rw [hu] at h
    cases h
    rfl
  obtain ⟨t', ht', hdiv⟩ := wdivremDividesOrReports.2 s' (hsa ▸ hmul.r0Defined) (hsb ▸ hmul.r1Defined) (hsd ▸ ha)
  refine ⟨t', ht', ?_⟩
  have hpos : 0 < s.a.val.toNat := toNat_pos hne
  have hhigh : s.a.val.toNat * s.b.val.toNat / 2 ^ 256 < s.a.val.toNat := by
    rw [Nat.div_lt_iff_lt_mul (Nat.two_pow_pos 256)]
    exact Nat.mul_lt_mul_of_pos_left s.b.val.isLt hpos
  rw [hsa, hsb, hsd, hmul.r0, hmul.r1, if_neg hpos.ne', if_neg (Nat.not_le.2 hhigh), Nat.div_add_mod',
    Nat.mul_div_cancel_left _ hpos, Nat.mul_mod_right] at hdiv
  exact hdiv

end Sys2Proof.Machine
end

section
/-! PROOFS. The statements on rounding and width conversion (spec/41_rounding_and_width.md): RND, CVT and MULDIV each end
with an exact number up to a limit, and from exact rounding the order of the modes. -/

namespace Sys2Proof.Machine

-- The words of the commands (R71)

/-- With ZERO = 0 a word is the weighted sum of its fields (R71). -/
theorem packFields_eq_ofNat {f : CmdFields} (hzero : f.zero = 0) :
    packFields f = BitVec.ofNat 16 (f.op.toNat + f.wsel.toNat * 16 + f.rm.toNat * 128) := by
  have hlt := (packFields f).isLt
  apply BitVec.eq_of_toNat_eq
  rw [wordFieldLayout.2 f hzero] at hlt ⊢
  rw [BitVec.toNat_ofNat]
  omega

-- Exact rounding (R120, R124, R126)

/-- Rounding adds 1 to the floor exactly when something remains and the mode rounds it up (R120, R124). -/
theorem rounded_eq_floor_add (n d : Nat) (m : RoundingMode) :
    rounded n d m =
      n / d + if n % d ≠ 0 ∧ (m = .up ∨ m = .nearest ∧ d ≤ 2 * (n % d)) then 1 else 0 := by
  cases m <;> simp [rounded, and_comm]

/-- A multiple of the denominator is not rounded (R126). -/
theorem rounded_of_dvd {n d : Nat} (h : d ∣ n) (m : RoundingMode) : rounded n d m = n / d := by
  simp [rounded_eq_floor_add, Nat.mod_eq_zero_of_dvd h]

theorem rounded_down_le_nearest (n d : Nat) : rounded n d .down ≤ rounded n d .nearest := Nat.le_add_right _ _

theorem rounded_nearest_le_up (n d : Nat) : rounded n d .nearest ≤ rounded n d .up := by
  simp only [rounded]
  split_ifs with hnearest hup
  · exact le_rfl
  · exact absurd hnearest.2 hup
  · exact Nat.le_succ _
  · exact le_rfl

theorem rounded_up_le_down_succ (n d : Nat) : rounded n d .up ≤ rounded n d .down + 1 := by
  simp only [rounded]
  split_ifs <;> omega

-- The kernels end with an exact number up to a limit (R128, R134)

/-- `round` of a result whose remainder stands in B and whose denominator stands in D: the exact number rounded is
A·D + B (R120, R124). -/
theorem roundPolicy_eq_exactUpTo {q d r : Word} (m : RoundingMode) (h : r.toNat < d.toNat) :
    roundPolicy q d r m = exactUpTo (2 ^ 256 - 1)
      (q.toNat + if r.toNat ≠ 0 ∧ (m = .up ∨ m = .nearest ∧ d.toNat ≤ 2 * r.toNat) then 1 else 0) := by
  have hdiv : (r.toNat + d.toNat * q.toNat) / d.toNat = q.toNat := by
    rw [Nat.add_mul_div_left _ _ (Nat.zero_lt_of_lt h), Nat.div_eq_of_lt h, Nat.zero_add]
  have hmod : (r.toNat + d.toNat * q.toNat) % d.toNat = r.toNat := by
    rw [Nat.add_mul_mod_self_left, Nat.mod_eq_of_lt h]
  rw [roundPolicy_spec _ q d r m h hdiv hmod, rounded_eq_floor_add, hdiv, hmod]

/-- `narrow` keeps a value up to MAX(W) and reports overflow above it (R128). -/
theorem narrow_eq_exactUpTo (w : Width) (v : Word) : narrow w v = exactUpTo (maxValue w) v.toNat := by
  by_cases h : v.toNat ≤ maxValue w
  · rw [narrow, exactUpTo, if_neg (Nat.not_lt.2 h), if_pos h, BitVec.ofNat_toNat, BitVec.setWidth_eq]
  · rw [narrow, exactUpTo, if_pos (Nat.lt_of_not_le h), if_neg h]

/-- MULDIV by a denominator whose view is 0 (R141, R144). -/
theorem resultOf_muldiv_zero {w : Width} {s : State} (m : RoundingMode) (h : viewNat w s.d.val = 0) :
    resultOf (.muldiv w m) s = .fault .divideByZero := by
  have hzero : view w s.d.val = 0 := BitVec.eq_of_toNat_eq (by rw [view_toNat, h]; rfl)
  simp only [resultOf, hzero, mulDiv_zero]
  rfl

/-- MULDIV is the exact rounded quotient of the views up to MAX(W) (R134, R141). -/
theorem resultOf_muldiv {w : Width} {s : State} (m : RoundingMode) (h : viewNat w s.d.val ≠ 0) :
    resultOf (.muldiv w m) s = .ofOne (exactUpTo (maxValue w)
      (rounded (viewNat w s.a.val * viewNat w s.b.val) (viewNat w s.d.val) m)) := by
  have hne : view w s.d.val ≠ 0 := fun h0 => h (by rw [← view_toNat, h0]; rfl)
  rw [resultOf, mulDiv_spec _ _ _ m hne, thenNarrow_exact, view_toNat, view_toNat, view_toNat]

namespace CommandResult.Ends

/-- The two ends of a command whose result is an exact number up to a limit that fits R0 (R30, R31). -/
theorem of_exactUpTo {limit n : Nat} {s t : State} (hlimit : limit < 2 ^ 256)
    (h : (ofOne (exactUpTo limit n)).Ends s t) : if n ≤ limit then EndsWithValue s t n else EndsWithRange s t := by
  by_cases hn : n ≤ limit
  · rw [exactUpTo, if_pos hn] at h
    have hv : EndsWithValue s t (BitVec.ofNat 256 n).toNat := h
    rw [BitVec.toNat_ofNat, Nat.mod_eq_of_lt (hn.trans_lt hlimit)] at hv
    exact (if_pos hn).symm ▸ hv
  · rw [exactUpTo, if_neg hn] at h
    exact (if_neg hn).symm ▸ h

/-- With VLD = 1 it is the number that stands in R0 (R28). -/
theorem r0_of_exactUpTo {limit n : Nat} {s t : State} (hlimit : limit < 2 ^ 256)
    (h : (ofOne (exactUpTo limit n)).Ends s t) (hv : vldOf t.status = true) : t.r0.val.toNat = n := by
  have hend := h.of_exactUpTo hlimit
  split_ifs at hend with hn
  · exact hend.r0
  · exact absurd (hend.vld.symm.trans hv) Bool.false_ne_true

end CommandResult.Ends

/-- On defined operands the spec determines the outcome of MULDIV (R27). -/
theorem determined_muldiv {s : State} (w : Width) (m : RoundingMode) (ha : s.a.poisoned = false)
    (hb : s.b.poisoned = false) (hd : s.d.poisoned = false) : determined (.muldiv w m) s = true := by
  simp [determined, operandsDefined, preconditionMet, ha, hb, hd]

/-- MULDIV on defined operands with a denominator that is not 0 ends with its exact rounded quotient up to MAX(W) (R134). -/
theorem exec_muldiv_ends {w : Width} {m : RoundingMode} {s t : State} (ha : s.a.poisoned = false)
    (hb : s.b.poisoned = false) (hd : s.d.poisoned = false) (hne : viewNat w s.d.val ≠ 0)
    (h : exec (.muldiv w m) s = .next t) :
    (CommandResult.ofOne (exactUpTo (maxValue w)
      (rounded (viewNat w s.a.val * viewNat w s.b.val) (viewNat w s.d.val) m))).Ends s t :=
  resultOf_muldiv m hne ▸ exec_ends_resultOf (determined_muldiv w m ha hb hd) h

-- The statements

/-- Settles O19: RND is the exact rounding of A·D + B by D, and only the round-up of MAXC passes MAXC. -/
theorem rndRoundsResult : Obligations.RndRoundsResult := by
  refine fun m => ⟨decode_eq_ok_iff.2 (packFields_eq_ofNat rfl), fun s ha hb hd hlt => ?_⟩
  obtain ⟨t, ht, hend⟩ := exists_exec_ends_resultOf (i := .rnd m) (s := s)
    (by simp [determined, operandsDefined, preconditionMet, ha, hb, hd, hlt])
  refine ⟨t, ht, ?_⟩
  rw [resultOf, roundPolicy_eq_exactUpTo m hlt] at hend
  have hend := hend.of_exactUpTo (by decide)
  have hmax : s.a.val.toNat ≤ 2 ^ 256 - 1 := Nat.le_sub_one_of_lt s.a.val.isLt
  by_cases hup : s.b.val.toNat ≠ 0 ∧ (m = .up ∨ m = .nearest ∧ s.d.val.toNat ≤ 2 * s.b.val.toNat)
  · rw [if_pos hup] at hend ⊢
    by_cases hfull : s.a.val.toNat = 2 ^ 256 - 1
    · rw [if_pos hfull]
      rwa [if_neg (by omega)] at hend
    · rw [if_neg hfull]
      rwa [if_pos (by omega)] at hend
  · rw [if_neg hup] at hend ⊢
    rwa [if_pos (by omega)] at hend

/-- Settles O20. -/
theorem cvtNarrowsOrReports : Obligations.CvtNarrowsOrReports := by
  refine fun w => ⟨decode_eq_ok_iff.2 (packFields_eq_ofNat rfl), fun s ha => ?_⟩
  obtain ⟨t, ht, hend⟩ := exists_exec_ends_resultOf (i := .cvt w) (s := s)
    (by simp [determined, operandsDefined, preconditionMet, ha])
  rw [resultOf, narrow_eq_exactUpTo] at hend
  exact ⟨t, ht, hend.of_exactUpTo (maxValue_lt w)⟩

/-- Settles O21: the fault for a view of D that is 0, and otherwise the exact rounded quotient up to MAX(W). -/
theorem muldivIsExactRoundedQuotient : Obligations.MuldivIsExactRoundedQuotient := by
  refine fun w m => ⟨decode_eq_ok_iff.2 (packFields_eq_ofNat rfl), fun s ha hb hd => ?_⟩
  obtain ⟨t, ht, hend⟩ := exists_exec_ends_resultOf (determined_muldiv w m ha hb hd)
  refine ⟨t, ht, ?_⟩
  by_cases hzero : viewNat w s.d.val = 0
  · rw [resultOf_muldiv_zero m hzero] at hend
    rw [if_pos hzero]
    exact hend
  · rw [resultOf_muldiv m hzero] at hend
    rw [if_neg hzero]
    exact hend.of_exactUpTo (maxValue_lt w)

/-- Settles O51: the three results are exact roundings of one quotient, and equal when nothing remains. -/
theorem muldivModesAreOrdered : Obligations.MuldivModesAreOrdered := by
  intro w s td tn tu ha hb hd hne hdown hnearest hup
  have hdown := exec_muldiv_ends ha hb hd hne hdown
  have hnearest := exec_muldiv_ends ha hb hd hne hnearest
  have hup := exec_muldiv_ends ha hb hd hne hup
  constructor
  · intro vd vn vu
    rw [hdown.r0_of_exactUpTo (maxValue_lt w) vd, hnearest.r0_of_exactUpTo (maxValue_lt w) vn,
      hup.r0_of_exactUpTo (maxValue_lt w) vu]
    exact ⟨rounded_down_le_nearest _ _, rounded_nearest_le_up _ _, rounded_up_le_down_succ _ _⟩
  · intro hdvd
    rw [rounded_of_dvd hdvd] at hdown hnearest hup
    exact ⟨hdown.sameOutcome hnearest rfl, hnearest.sameOutcome hup rfl⟩

end Sys2Proof.Machine
end

section
/-! PROOFS. The statements on MULSHR, AVG and the two paths of `mul_div` (spec/42_muldiv_mulshr_avg.md): the result of each
command is the exact rounding that its kernel was shown to compute. -/

namespace Sys2Proof.Machine

-- The bound of MULSHR (R12, R150)

/-- The two admissible bounds as one number: W, or C = 256 (R12). -/
theorem shiftLimit_eq_ite (bound : ShiftBound) (w : Width) :
    shiftLimit bound w = if bound = .perWidth then bitWidth w else 256 := by
  cases bound <;> rfl

-- The results of the two commands in exact arithmetic

/-- MULSHR at the bound or past it, all of D being the shift amount (R150). -/
theorem resultOf_mulshr_illegal {w : Width} {s : State} (m : RoundingMode)
    (h : shiftLimit s.mulshrBound w ≤ s.d.val.toNat) : resultOf (.mulshr w m) s = .fault .illegalShift := by
  rw [resultOf, shiftAmount, mulShrGuarded_spec, if_pos h]
  rfl

/-- MULSHR below the bound is the exact rounded shift of the product of the views, up to MAX(W) (R151, R153). -/
theorem resultOf_mulshr {w : Width} {s : State} (m : RoundingMode)
    (h : s.d.val.toNat < shiftLimit s.mulshrBound w) :
    resultOf (.mulshr w m) s = .ofOne (exactUpTo (maxValue w)
      (rounded (viewNat w s.a.val * viewNat w s.b.val) (2 ^ s.d.val.toNat) m)) := by
  rw [resultOf, shiftAmount, mulShrGuarded_spec, if_neg (Nat.not_le.2 h), thenNarrow_exact, view_toNat, view_toNat]

/-- AVG is the rounded half of the sum of the views (R162). -/
theorem resultOf_avg (w : Width) (m : RoundingMode) (s : State) :
    resultOf (.avg w m) s = .one (BitVec.ofNat 256 (rounded (viewNat w s.a.val + viewNat w s.b.val) 2 m)) := by
  rw [resultOf, average_spec, view_toNat, view_toNat]
  rfl

/-- The sum of the views does not depend on their order, so neither does AVG (R162 d). -/
theorem resultOf_avg_swap {w : Width} {s s' : State} (m : RoundingMode) (ha : s'.a = s.b) (hb : s'.b = s.a) :
    resultOf (.avg w m) s' = resultOf (.avg w m) s := by
  rw [resultOf_avg, resultOf_avg, ha, hb, Nat.add_comm]

/-- What remains of a halving is a tie, which Nearest rounds up (R162 a). -/
theorem rounded_half_nearest (n : Nat) : rounded n 2 .nearest = rounded n 2 .up := by
  have htie : 2 ≤ 2 * (n % 2) ↔ n % 2 ≠ 0 := by omega
  simp only [rounded, htie, and_self]

/-- On defined A and B the spec determines the outcome of AVG, whatever D holds (R27, R160). -/
theorem determined_avg {s : State} (w : Width) (m : RoundingMode) (ha : s.a.poisoned = false)
    (hb : s.b.poisoned = false) : determined (.avg w m) s = true := by
  simp [determined, operandsDefined, preconditionMet, ha, hb]

-- The statements

/-- Settles O22: the fault at the bound, and below it the exact rounded shift up to MAX(W). -/
theorem mulshrIsExactRoundedShift : Obligations.MulshrIsExactRoundedShift := by
  refine fun w m => ⟨decode_eq_ok_iff.2 (packFields_eq_ofNat rfl), fun s ha hb hd => ?_⟩
  obtain ⟨t, ht, hend⟩ := exists_exec_ends_resultOf (i := .mulshr w m) (s := s)
    (by simp [determined, operandsDefined, preconditionMet, ha, hb, hd])
  refine ⟨t, ht, ?_⟩
  rw [← shiftLimit_eq_ite]
  by_cases hbound : shiftLimit s.mulshrBound w ≤ s.d.val.toNat
  · rw [resultOf_mulshr_illegal m hbound] at hend
    rw [if_pos hbound]
    exact hend
  · rw [resultOf_mulshr m (Nat.lt_of_not_le hbound)] at hend
    rw [if_neg hbound]
    exact hend.of_exactUpTo (maxValue_lt w)

/-- Settles O23: the rounded half of the sum of two W-bit views is below 2^W, so R0 holds it whole. -/
theorem avgIsRoundedHalfSum : Obligations.AvgIsRoundedHalfSum := by
  refine fun w m => ⟨decode_eq_ok_iff.2 (packFields_eq_ofNat rfl), fun s ha hb => ?_⟩
  obtain ⟨t, ht, hend⟩ := exists_exec_ends_resultOf (determined_avg w m ha hb)
  have hfits : rounded (viewNat w s.a.val + viewNat w s.b.val) 2 m < 2 ^ 256 :=
    (rounded_average_lt m (viewNat_lt w _) (viewNat_lt w _)).trans_le (two_pow_bitWidth_le w)
  rw [resultOf_avg] at hend
  have hvalue : EndsWithValue s t
      (BitVec.ofNat 256 (rounded (viewNat w s.a.val + viewNat w s.b.val) 2 m)).toNat := hend
  rw [BitVec.toNat_ofNat, Nat.mod_eq_of_lt hfits] at hvalue
  exact ⟨t, ht, hvalue⟩

/-- Settles O48: both paths are the exact rounded quotient up to MAXC. -/
theorem fastAndWidePathAgree : Obligations.FastAndWidePathAgree := fun a b d m hd ha hb =>
  calc mulDivFast a b d m
    _ = exactUpTo (2 ^ 256 - 1) (rounded (a.toNat * b.toNat) d.toNat m) := mulDivFast_spec a b d m hd ha hb
    _ = mulDivWide a b d m := (mulDivWide_spec a b d m hd).symm

/-- Settles O52: the results are equal, and equal results are the same outcome. -/
theorem avgIsSymmetricAndNearestIsUp : Obligations.AvgIsSymmetricAndNearestIsUp := by
  intro w s s' ha hb ha' hb' hfc
  constructor
  · intro m t t' h h'
    have hend := exec_ends_resultOf (determined_avg w m ha hb) h
    have hend' := exec_ends_resultOf (determined_avg w m (ha' ▸ hb) (hb' ▸ ha)) h'
    rw [resultOf_avg_swap m ha' hb'] at hend'
    exact hend.sameOutcome hend' hfc
  · intro t t' hnearest hup
    have hnearest := exec_ends_resultOf (determined_avg w .nearest ha hb) hnearest
    have hup := exec_ends_resultOf (determined_avg w .up ha hb) hup
    rw [resultOf_avg, rounded_half_nearest, ← resultOf_avg] at hnearest
    exact hnearest.sameOutcome hup rfl

end Sys2Proof.Machine
end

section
/-! PROOFS. The statements on the checked shifts, CLZ and the logarithms (spec/43_shift_clz_log.md): the result of each
command in exact arithmetic, from what its kernel was shown to compute. -/

namespace Sys2Proof.Machine

-- The results in exact arithmetic

/-- CSHL is the exact product with 2^D when D < W and it is below 2^W, all of D being the shift amount (R171, R172). -/
theorem resultOf_cshl (w : Width) (s : State) :
    resultOf (.cshl w) s = .ofOne (ofOption
      (if s.d.val.toNat < bitWidth w ∧ viewNat w s.a.val * 2 ^ s.d.val.toNat < 2 ^ bitWidth w
        then some (BitVec.ofNat 256 (viewNat w s.a.val * 2 ^ s.d.val.toNat)) else none)) := by
  rw [resultOf, shiftAmount, checkedShl_spec w _ _ (view_lt w _), view_toNat]

/-- CSHR is the exact quotient by 2^D when D < W and nothing remains (R171, R173). -/
theorem resultOf_cshr (w : Width) (s : State) :
    resultOf (.cshr w) s = .ofOne (ofOption
      (if s.d.val.toNat < bitWidth w ∧ viewNat w s.a.val % 2 ^ s.d.val.toNat = 0
        then some (BitVec.ofNat 256 (viewNat w s.a.val / 2 ^ s.d.val.toNat)) else none)) := by
  rw [resultOf, shiftAmount, checkedShr_spec w _ _ (view_lt w _), view_toNat]

/-- CLZ counts from the top set bit of the view (R176, R177). -/
theorem resultOf_clz (w : Width) (s : State) :
    resultOf (.clz w) s = .one (countWord
      (if viewNat w s.a.val = 0 then bitWidth w else bitWidth w - 1 - Nat.log 2 (viewNat w s.a.val))) := by
  rw [resultOf, countLeadingZeros_spec w _ (view_lt w _), view_toNat]
  rfl

/-- LOG2 is the exact base-2 logarithm of the view (R180, R181). -/
theorem resultOf_log2 (w : Width) (m : RoundingMode) (s : State) :
    resultOf (.log2 w m) s = .one (countWord (exactLog 2 (viewNat w s.a.val) m)) := by
  rw [resultOf, log2Of_spec w _ m (view_lt w _), view_toNat]
  rfl

/-- LOG256 is the exact base-256 logarithm of the view (R186, R187). -/
theorem resultOf_log256 (w : Width) (m : RoundingMode) (s : State) :
    resultOf (.log256 w m) s = .one (countWord (exactLog 256 (viewNat w s.a.val) m)) := by
  rw [resultOf, log256Of_spec w _ m (view_lt w _), view_toNat]
  rfl

namespace CommandResult.Ends

/-- The two ends of a checked operation, whose result fits R0 where there is one (R18, R31, R212). -/
theorem of_checked {p : Prop} [Decidable p] {n : Nat} {s t : State} (hn : p → n < 2 ^ 256)
    (h : (ofOne (ofOption (if p then some (BitVec.ofNat 256 n) else none))).Ends s t) :
    if p then EndsWithValue s t n else EndsWithRange s t := by
  by_cases hp : p
  · rw [if_pos hp] at h ⊢
    have hv : EndsWithValue s t (BitVec.ofNat 256 n).toNat := h
    rwa [BitVec.toNat_ofNat, Nat.mod_eq_of_lt (hn hp)] at hv
  · rw [if_neg hp] at h ⊢
    exact h

/-- A number of bits is at most W, so R0 holds it whole (R176, R180, R186). -/
theorem of_count {w : Width} {n : Nat} {s t : State} (hn : n ≤ bitWidth w)
    (h : (CommandResult.one (countWord n)).Ends s t) : EndsWithValue s t n := by
  have hv : EndsWithValue s t (BitVec.ofNat 256 n).toNat := h
  have hlt : n < 2 ^ 256 := (hn.trans (bitWidth_le w)).trans_lt Nat.lt_two_pow_self
  rwa [BitVec.toNat_ofNat, Nat.mod_eq_of_lt hlt] at hv

end CommandResult.Ends

-- The checked shifts (R172, R173)

/-- CSHL on defined A and D ends with the exact product, or with a range violation (R172). -/
theorem exec_cshl_ends {w : Width} {s t : State} (ha : s.a.poisoned = false) (hd : s.d.poisoned = false)
    (h : exec (.cshl w) s = .next t) :
    if s.d.val.toNat < bitWidth w ∧ viewNat w s.a.val * 2 ^ s.d.val.toNat < 2 ^ bitWidth w then
      EndsWithValue s t (viewNat w s.a.val * 2 ^ s.d.val.toNat)
    else EndsWithRange s t := by
  have hend := exec_ends_resultOf (by simp [determined, operandsDefined, preconditionMet, ha, hd]) h
  rw [resultOf_cshl] at hend
  exact hend.of_checked fun hfit => hfit.2.trans_le (two_pow_bitWidth_le w)

/-- CSHR on defined A and D ends with the exact quotient, or with a range violation (R173). -/
theorem exec_cshr_ends {w : Width} {s t : State} (ha : s.a.poisoned = false) (hd : s.d.poisoned = false)
    (h : exec (.cshr w) s = .next t) :
    if s.d.val.toNat < bitWidth w ∧ viewNat w s.a.val % 2 ^ s.d.val.toNat = 0 then
      EndsWithValue s t (viewNat w s.a.val / 2 ^ s.d.val.toNat)
    else EndsWithRange s t := by
  have hend := exec_ends_resultOf (by simp [determined, operandsDefined, preconditionMet, ha, hd]) h
  rw [resultOf_cshr] at hend
  exact hend.of_checked fun _ =>
    (Nat.div_le_self _ _).trans_lt ((viewNat_lt w _).trans_le (two_pow_bitWidth_le w))

/-- VLD = 1 excludes the range violation (R30, R31). -/
theorem endsWithValue_of_vld {p : Prop} [Decidable p] {n : Nat} {s t : State}
    (h : if p then EndsWithValue s t n else EndsWithRange s t) (hv : vldOf t.status = true) :
    p ∧ EndsWithValue s t n := by
  by_cases hp : p
  · rw [if_pos hp] at h
    exact ⟨hp, h⟩
  · rw [if_neg hp] at h
    exact absurd (h.vld.symm.trans hv) Bool.false_ne_true

/-- A content below 2^W is its own view (R40). -/
theorem viewNat_eq_of_lt {w : Width} {v : Word} (h : v.toNat < 2 ^ bitWidth w) : viewNat w v = v.toNat :=
  Nat.mod_eq_of_lt h

-- Logarithms of b^(k+1) − 1 (R183, R187 e)

theorem exactLog_down_pow_sub_one {b : Nat} (hb : 1 < b) (k : Nat) : exactLog b (b ^ (k + 1) - 1) .down = k := by
  have hlt : b ^ k < b ^ (k + 1) := Nat.pow_lt_pow_right hb (Nat.lt_succ_self k)
  exact Nat.log_eq_of_pow_le_of_lt_pow (Nat.le_sub_one_of_lt hlt) (Nat.sub_one_lt_of_lt hlt)

/-- The largest value is no exact power, so its ceiling is the next exponent: only 2^1 − 1 = 2^0 is shut out. -/
theorem exactLog_up_pow_sub_one {b k : Nat} (hb : 1 < b) (h : b ^ k < b ^ (k + 1) - 1) :
    exactLog b (b ^ (k + 1) - 1) .up = k + 1 :=
  Nat.le_antisymm ((Nat.clog_le_iff_le_pow hb).2 (Nat.sub_le _ _)) ((Nat.lt_clog_iff_pow_lt hb).2 h)

/-- From 2^2 − 1 on, one below a power of 2 is above the power before it (R183). -/
theorem two_pow_lt_pow_succ_sub_one {k : Nat} (hk : 1 ≤ k) : 2 ^ k < 2 ^ (k + 1) - 1 := by
  have hle : 2 ^ 1 ≤ 2 ^ k := Nat.pow_le_pow_right (by decide) hk
  rw [Nat.pow_succ]
  omega

/-- The square of 2^(k+1) − 1 is past that of the midpoint of 2^k and 2^(k+1) (R181 b). -/
theorem exactLog_two_nearest_pow_sub_one {k : Nat} (hk : 1 ≤ k) :
    exactLog 2 (2 ^ (k + 1) - 1) .nearest = k + 1 := by
  have hlog : Nat.log 2 (2 ^ (k + 1) - 1) = k := exactLog_down_pow_sub_one (by decide) k
  have hreach : 2 ^ (2 * k + 1) ≤ (2 ^ (k + 1) - 1) * (2 ^ (k + 1) - 1) := by
    have hgap := two_pow_lt_pow_succ_sub_one hk
    calc 2 ^ (2 * k + 1)
      _ = 2 ^ k * (2 ^ (k + 1) - 1 + 1) := by
        rw [Nat.sub_add_cancel Nat.one_le_two_pow, ← Nat.pow_add]
        congr 1
        omega
      _ ≤ (2 ^ k + 1) * (2 ^ (k + 1) - 1) := by
        rw [Nat.mul_succ, Nat.succ_mul]
        exact Nat.add_le_add_left hgap.le _
      _ ≤ (2 ^ (k + 1) - 1) * (2 ^ (k + 1) - 1) := Nat.mul_le_mul_right _ hgap
  rw [exactLog, hlog, if_pos hreach]

/-- Every width is a whole number of bytes (R11). -/
theorem bitWidth_eq_bytes (w : Width) : ∃ k, bitWidth w = 8 * (k + 1) := by
  cases w
  · exact ⟨0, rfl⟩
  · exact ⟨1, rfl⟩
  · exact ⟨3, rfl⟩
  · exact ⟨7, rfl⟩
  · exact ⟨15, rfl⟩
  · exact ⟨31, rfl⟩

-- The statements

/-- Settles O24. -/
theorem cshlShiftsOrReports : Obligations.CshlShiftsOrReports := by
  refine fun w => ⟨decode_eq_ok_iff.2 (packFields_eq_ofNat rfl), fun s ha hd => ?_⟩
  obtain ⟨t, ht, -⟩ := exec_ending (.cshl w) s
  exact ⟨t, ht, exec_cshl_ends ha hd ht⟩

/-- Settles O25. -/
theorem cshrShiftsOrReports : Obligations.CshrShiftsOrReports := by
  refine fun w => ⟨decode_eq_ok_iff.2 (packFields_eq_ofNat rfl), fun s ha hd => ?_⟩
  obtain ⟨t, ht, -⟩ := exec_ending (.cshr w) s
  exact ⟨t, ht, exec_cshr_ends ha hd ht⟩

/-- Settles O26. -/
theorem clzCountsLeadingZeros : Obligations.ClzCountsLeadingZeros := by
  refine fun w => ⟨decode_eq_ok_iff.2 (packFields_eq_ofNat rfl), fun s ha => ?_⟩
  obtain ⟨t, ht, hend⟩ := exists_exec_ends_resultOf (i := .clz w) (s := s)
    (by simp [determined, operandsDefined, preconditionMet, ha])
  rw [resultOf_clz] at hend
  refine ⟨t, ht, hend.of_count (w := w) ?_⟩
  split_ifs <;> omega

/-- Settles O27: the logarithm of a view below 2^W is at most W. -/
theorem log2IsExactLogarithm : Obligations.Log2IsExactLogarithm := by
  refine fun w m => ⟨decode_eq_ok_iff.2 (packFields_eq_ofNat rfl), fun s ha => ?_⟩
  obtain ⟨t, ht, hend⟩ := exists_exec_ends_resultOf (i := .log2 w m) (s := s)
    (by simp [determined, operandsDefined, preconditionMet, ha])
  rw [resultOf_log2] at hend
  exact ⟨t, ht, hend.of_count (exactLog_le 2 _ (bitWidth w) m (by decide) (viewNat_lt w _))⟩

/-- Settles O28: a view below 2^W is below 256^W too. -/
theorem log256IsExactLogarithm : Obligations.Log256IsExactLogarithm := by
  refine fun w m => ⟨decode_eq_ok_iff.2 (packFields_eq_ofNat rfl), fun s ha => ?_⟩
  obtain ⟨t, ht, hend⟩ := exists_exec_ends_resultOf (i := .log256 w m) (s := s)
    (by simp [determined, operandsDefined, preconditionMet, ha])
  have hlt : viewNat w s.a.val < 256 ^ bitWidth w :=
    (viewNat_lt w _).trans_le (Nat.pow_le_pow_left (by decide) _)
  rw [resultOf_log256] at hend
  exact ⟨t, ht, hend.of_count (exactLog_le 256 _ (bitWidth w) m (by decide) hlt)⟩

/-- Settles O50: the first result is a W-bit value that the opposite shift brings back, with no bit lost. -/
theorem checkedShiftsRoundTrip : Obligations.CheckedShiftsRoundTrip := by
  intro w s t s' ha hd hv hsa hsd
  have hpos := Nat.two_pow_pos s.d.val.toNat
  have hview := viewNat_lt w s.a.val
  constructor
  · intro h
    obtain ⟨⟨hlt, hfit⟩, hleft⟩ := endsWithValue_of_vld (exec_cshl_ends ha hd h) hv
    obtain ⟨t', ht', hright⟩ := (cshrShiftsOrReports w).2 s' (hsa ▸ hleft.r0Defined) (hsd ▸ hd)
    rw [hsa, hsd, viewNat_eq_of_lt (hleft.r0 ▸ hfit), hleft.r0, if_pos ⟨hlt, Nat.mul_mod_left _ _⟩,
      Nat.mul_div_cancel _ hpos] at hright
    exact ⟨t', ht', hright⟩
  · intro h
    obtain ⟨⟨hlt, hexact⟩, hright⟩ := endsWithValue_of_vld (exec_cshr_ends ha hd h) hv
    obtain ⟨t', ht', hleft⟩ := (cshlShiftsOrReports w).2 s' (hsa ▸ hright.r0Defined) (hsd ▸ hd)
    have hback : viewNat w s.a.val / 2 ^ s.d.val.toNat * 2 ^ s.d.val.toNat = viewNat w s.a.val :=
      Nat.div_mul_cancel (Nat.dvd_of_mod_eq_zero hexact)
    have hfit : t.r0.val.toNat < 2 ^ bitWidth w := hright.r0 ▸ (Nat.div_le_self _ _).trans_lt hview
    rw [hsa, hsd, viewNat_eq_of_lt hfit, hright.r0, hback, if_pos ⟨hlt, hview⟩] at hleft
    exact ⟨t', ht', hleft⟩

/-- Settles O53: 2^W − 1 is one below a power of 2 and, since W is a whole number of bytes, one below a power of 256. -/
theorem logarithmsOfTheMaximumValue : Obligations.LogarithmsOfTheMaximumValue := by
  intro w s ha hmax
  have hlog2 (m : RoundingMode) := (log2IsExactLogarithm w m).2 s ha
  have hlog256 (m : RoundingMode) := (log256IsExactLogarithm w m).2 s ha
  obtain ⟨k, hbytes⟩ := bitWidth_eq_bytes w
  obtain ⟨n, hn, hbits⟩ : ∃ n, 1 ≤ n ∧ bitWidth w = n + 1 := ⟨8 * k + 7, by omega, by omega⟩
  have hcount : bitWidth w / 8 = k + 1 := by omega
  have hmax256 : viewNat w s.a.val = 256 ^ (k + 1) - 1 := by rw [hmax, hbytes, Nat.pow_mul]
  simp only [hmax256] at hlog256
  simp only [hmax, hbits] at hlog2
  rw [hcount, hbits, Nat.add_sub_cancel, Nat.add_sub_cancel]
  refine ⟨?_, ?_, ?_, ?_, ?_⟩
  · simpa only [exactLog_down_pow_sub_one one_lt_two] using hlog2 .down
  · simpa only [exactLog_up_pow_sub_one one_lt_two (two_pow_lt_pow_succ_sub_one hn)] using hlog2 .up
  · simpa only [exactLog_two_nearest_pow_sub_one hn] using hlog2 .nearest
  · simpa only [exactLog_down_pow_sub_one (by decide : 1 < 256)] using hlog256 .down
  · have hgap : 256 ^ k < 256 ^ (k + 1) - 1 := by
      have : 0 < 256 ^ k := Nat.pow_pos (by decide)
      rw [Nat.pow_succ]
      omega
    simpa only [exactLog_up_pow_sub_one (by decide : 1 < 256) hgap] using hlog256 .up

end Sys2Proof.Machine
end

section
/-! PROOFS. The statements on faults and range violations (spec/60_exceptions.md): the table of R201 as a function, which
commands can report a range violation, and the run of a halted block. -/

namespace Sys2Proof.Machine

-- The fault of a command and of a word (R201)

/-- The table of R201 for a command. `exec_fc` ties it to `exec`. -/
def faultOf (i : Instr) (s : State) : Option Cause :=
  match i with
  | .wdivrem => if s.d.val.toNat = 0 then some .divideByZero else none
  | .muldiv w _ => if viewNat w s.d.val = 0 then some .divideByZero else none
  | .mulshr w _ => if shiftLimit s.mulshrBound w ≤ s.d.val.toNat then some .illegalShift else none
  | .wmul | .rnd _ | .cvt _ | .avg _ _ | .cshl _ | .cshr _ | .clz _ | .log2 _ _ | .log256 _ _ => none

/-- The table of R201 for a word: the row of IllegalCommand stands at decode. `issueWord_fc` ties it to `issueWord`. -/
def faultOfWord (c : CmdWord) (s : State) : Option Cause :=
  match decode c with
  | .ok i => faultOf i s
  | .error _ => some .illegalCommand

/-- FC after a command on a block that was not halted: 0 without a fault (R28, R32). -/
def fcAfter : Option Cause → BitVec 3
  | none => 0
  | some c => causeCode c

theorem causeCode_injective : Function.Injective causeCode := by
  intro x y
  cases x <;> cases y <;> decide

theorem fcAfter_eq_causeCode_iff {o : Option Cause} {k : Cause} : fcAfter o = causeCode k ↔ o = some k := by
  cases o with
  | none => simpa [fcAfter] using (causeCode_ne_zero k).symm
  | some c => simpa [fcAfter] using causeCode_injective.eq_iff

theorem fcAfter_le (o : Option Cause) : (fcAfter o).toNat ≤ 3 := by
  cases o with
  | none => exact Nat.zero_le 3
  | some c => exact causeCode_le c

-- The fault of each result

namespace CommandResult

/-- The fault among the ends of a command. -/
def cause : CommandResult → Option Cause
  | .fault c => some c
  | .range | .one _ | .two _ _ => none

theorem cause_ofOne_eq_none {k : KernelResult Word} (h : ∀ c, k ≠ .raise c) : (ofOne k).cause = none := by
  cases k with
  | raise c => exact absurd rfl (h c)
  | overflow => rfl
  | value v => rfl

/-- An exact number up to a limit is a value or a range violation, and no fault (R134). -/
theorem cause_ofOne_exactUpTo (limit n : Nat) : (ofOne (exactUpTo limit n)).cause = none :=
  cause_ofOne_eq_none (exactUpTo_ne_raise limit n)

theorem cause_ofTwo_divRem (n : Wide) (d : Word) :
    (ofTwo (divRem n d)).cause = if d.toNat = 0 then some .divideByZero else none := by
  by_cases h0 : d = 0
  · rw [h0, divRem_zero]
    rfl
  · rw [if_neg (toNat_pos h0).ne', divRem_spec, if_neg h0]
    split_ifs <;> rfl

/-- FC after each end, from a block that is not halted (R32, R206). -/
theorem Ends.fc {r : CommandResult} {s t : State} (h : r.Ends s t) (hn : s.halted = false) :
    fcOf t.status = fcAfter r.cause := by
  have h0 := halted_eq_false_iff.1 hn
  cases r with
  | fault c => exact EndsWithFault.fc h
  | range => exact (EndsWithRange.fc h).trans h0
  | one v => exact (EndsWithValue.fc h).trans h0
  | two v u => exact (EndsWithTwo.fc h).trans h0

/-- OVF is set by the range violation alone (R30, R31, R206). -/
theorem Ends.ovf_eq_false {r : CommandResult} {s t : State} (h : r.Ends s t) (hr : r ≠ .range) :
    ovfOf t.status = false := by
  cases r with
  | fault c => exact EndsWithFault.ovf h
  | range => exact absurd rfl hr
  | one v => exact EndsWithValue.ovf h
  | two v u => exact EndsWithTwo.ovf h

end CommandResult

/-- The result of a command is a fault exactly where the table of R201 lists one. -/
theorem cause_resultOf (i : Instr) (s : State) : (resultOf i s).cause = faultOf i s := by
  cases i with
  | wmul => rfl
  | wdivrem => exact CommandResult.cause_ofTwo_divRem _ _
  | rnd m => exact CommandResult.cause_ofOne_eq_none (roundPolicy_ne_raise _ _ _ m)
  | cvt w => exact CommandResult.cause_ofOne_eq_none (narrow_ne_raise w _)
  | muldiv w m =>
    by_cases h : viewNat w s.d.val = 0
    · rw [resultOf_muldiv_zero m h, faultOf, if_pos h]
      rfl
    · rw [resultOf_muldiv m h, faultOf, if_neg h]
      exact CommandResult.cause_ofOne_exactUpTo _ _
  | mulshr w m =>
    by_cases h : shiftLimit s.mulshrBound w ≤ s.d.val.toNat
    · rw [resultOf_mulshr_illegal m h, faultOf, if_pos h]
      rfl
    · rw [resultOf_mulshr m (Nat.lt_of_not_le h), faultOf, if_neg h]
      exact CommandResult.cause_ofOne_exactUpTo _ _
  | avg w m =>
    rw [resultOf_avg]
    rfl
  | cshl w => exact CommandResult.cause_ofOne_eq_none (ofOption_ne_raise _)
  | cshr w => exact CommandResult.cause_ofOne_eq_none (ofOption_ne_raise _)
  | clz w => rfl
  | log2 w m => rfl
  | log256 w m => rfl

/-- Only RND has a precondition besides its operands, and RND never faults (R122, R203). -/
theorem faultOf_of_precondition_unmet {i : Instr} {s : State} (h : preconditionMet i s = false) :
    faultOf i s = none := by
  cases i with
  | rnd m => rfl
  | wmul | wdivrem | cvt | muldiv | mulshr | avg | cshl | cshr | clz | log2 | log256 =>
    exact absurd h.symm Bool.false_ne_true

/-- FC after a command with defined operands is the fault of the table of R201. -/
theorem exec_fc {i : Instr} {s t : State} (hop : operandsDefined i s = true) (hn : s.halted = false)
    (h : exec i s = .next t) : fcOf t.status = fcAfter (faultOf i s) := by
  cases hp : preconditionMet i s with
  | true =>
    have hdet : determined i s = true := by rw [determined, hop, hp]; rfl
    rw [← cause_resultOf]
    exact (exec_ends_resultOf hdet h).fc hn
  | false =>
    rw [faultOf_of_precondition_unmet hp]
    have hdet : determined i s = false := by rw [determined, hp, Bool.and_false]
    cases ending_of_exec h with
    | unspecified hop' => exact absurd (hop'.symm.trans hop) Bool.false_ne_true
    | unstated => exact (completeUnstated_ends s).fc.trans (halted_eq_false_iff.1 hn)
    | fault hdet' | range hdet' | one hdet' | two hdet' => exact absurd (hdet.symm.trans hdet') Bool.false_ne_true

/-- FC after ISSUE, on a block that is not halted, of an illegal word or of a command with defined operands. -/
theorem issueWord_fc {c : CmdWord} {s t : State} (hn : s.halted = false)
    (hop : ∀ i, decode c = .ok i → operandsDefined i s = true) (h : issueWord c s = .next t) :
    fcOf t.status = fcAfter (faultOfWord c s) := by
  cases hc : decode c with
  | error e =>
    rw [issueWord_illegal hn hc] at h
    cases h
    rw [faultOfWord, hc]
    exact (takeFault_ends .illegalCommand s).fc
  | ok i =>
    rw [issueWord_legal hn hc] at h
    rw [faultOfWord, hc]
    exact exec_fc (hop i hc) hn h

/-- ISSUE keeps A, B and D, whatever it ends with (R25, R206, R207). -/
theorem issueWord_keeps_operands {c : CmdWord} {s t : State} (h : issueWord c s = .next t) :
    t.a = s.a ∧ t.b = s.b ∧ t.d = s.d := by
  rcases issueWord_ends h with rfl | ⟨-, ⟨hu, -⟩ | ⟨r, hr⟩⟩
  · exact ⟨rfl, rfl, rfl⟩
  · exact ⟨hu.kept.a, hu.kept.b, hu.kept.d⟩
  · exact ⟨hr.kept.a, hr.kept.b, hr.kept.d⟩

-- The conditions of R201, cause by cause

theorem faultOf_ne_illegalCommand (i : Instr) (s : State) : faultOf i s ≠ some .illegalCommand := by
  cases i <;> simp [faultOf]

theorem faultOf_eq_divideByZero_iff {i : Instr} {s : State} : faultOf i s = some .divideByZero ↔
    (i = .wdivrem ∧ s.d.val.toNat = 0) ∨ ∃ w m, i = .muldiv w m ∧ viewNat w s.d.val = 0 := by
  cases i <;> simp [faultOf]

theorem faultOf_eq_illegalShift_iff {i : Instr} {s : State} : faultOf i s = some .illegalShift ↔
    ∃ w m, i = .mulshr w m ∧ shiftLimit s.mulshrBound w ≤ s.d.val.toNat := by
  cases i <;> simp [faultOf]

/-- IllegalCommand is the fault of exactly the words that select no command (R205). -/
theorem faultOfWord_eq_illegalCommand_iff {c : CmdWord} {s : State} :
    faultOfWord c s = some .illegalCommand ↔ ¬ ∃ i, decode c = .ok i := by
  cases hc : decode c with
  | error e => simp [faultOfWord, hc]
  | ok i => simpa [faultOfWord, hc] using faultOf_ne_illegalCommand i s

/-- Every other fault is the one of the command that the word selects. -/
theorem faultOfWord_eq_some_iff {c : CmdWord} {s : State} {k : Cause} (hk : k ≠ .illegalCommand) :
    faultOfWord c s = some k ↔ ∃ i, decode c = .ok i ∧ faultOf i s = some k := by
  cases hc : decode c with
  | error e => simpa [faultOfWord, hc] using hk.symm
  | ok i => simp [faultOfWord, hc]

theorem faultOfWord_eq_divideByZero_iff {c : CmdWord} {s : State} : faultOfWord c s = some .divideByZero ↔
    (decode c = .ok .wdivrem ∧ s.d.val.toNat = 0) ∨
      ∃ w m, decode c = .ok (.muldiv w m) ∧ viewNat w s.d.val = 0 := by
  rw [faultOfWord_eq_some_iff (by decide)]
  simp only [faultOf_eq_divideByZero_iff]
  constructor
  · rintro ⟨i, hc, ⟨rfl, h0⟩ | ⟨w, m, rfl, h0⟩⟩
    · exact .inl ⟨hc, h0⟩
    · exact .inr ⟨w, m, hc, h0⟩
  · rintro (⟨hc, h0⟩ | ⟨w, m, hc, h0⟩)
    · exact ⟨_, hc, .inl ⟨rfl, h0⟩⟩
    · exact ⟨_, hc, .inr ⟨w, m, rfl, h0⟩⟩

theorem faultOfWord_eq_illegalShift_iff {c : CmdWord} {s : State} : faultOfWord c s = some .illegalShift ↔
    ∃ w m, decode c = .ok (.mulshr w m) ∧
      (if s.mulshrBound = .perWidth then bitWidth w else 256) ≤ s.d.val.toNat := by
  rw [faultOfWord_eq_some_iff (by decide)]
  simp only [faultOf_eq_illegalShift_iff, ← shiftLimit_eq_ite]
  constructor
  · rintro ⟨i, hc, w, m, rfl, hle⟩
    exact ⟨w, m, hc, hle⟩
  · rintro ⟨w, m, hc, hle⟩
    exact ⟨_, hc, w, m, rfl, hle⟩

-- Range violations (R213)

/-- The commands with "no" in the table of R213. -/
theorem resultOf_ne_range {i : Instr} (s : State) (hi : i = .wmul ∨ (∃ w m, i = .avg w m) ∨ (∃ w, i = .clz w) ∨
    (∃ w m, i = .log2 w m) ∨ ∃ w m, i = .log256 w m) : resultOf i s ≠ .range := by
  rcases hi with rfl | ⟨w, m, rfl⟩ | ⟨w, rfl⟩ | ⟨w, m, rfl⟩ | ⟨w, m, rfl⟩
  · exact nofun
  · rw [resultOf_avg]
    exact nofun
  · exact nofun
  · exact nofun
  · exact nofun

/-- What a host brings about by RESET and three WR (R55, R65). -/
def writtenState (a b d : Word) : State :=
  { State.reset with a := written a, b := written b, d := written d }

theorem writtenState_coherent (a b d : Word) : (writtenState a b d).Coherent :=
  resetIsCoherent.of_sameResults ⟨rfl, rfl, rfl⟩

theorem writtenState_halted (a b d : Word) : (writtenState a b d).halted = false :=
  (by decide : State.reset.halted = false)

/-- From the state after reset the three WR are performed and leave the operands written (R55). -/
theorem run_writes (a b d : Word) :
    Sys2Proof.core.run 3 { State.reset with pending := [.wr 0 a, .wr 1 b, .wr 2 d] } =
      .next (writtenState a b d) := by
  have hn : State.reset.halted = false := by decide
  exact run_next ((writeSetsOneOperandRegister _ a _).1 rfl hn)
    (run_next ((writeSetsOneOperandRegister _ b _).2.1 rfl hn)
      (run_next ((writeSetsOneOperandRegister _ d _).2.2.1 rfl hn) rfl))

/-- The command reports a range violation in a state that a host can bring about, where the spec determines the outcome
(R213). -/
def CanReportRange (i : Instr) : Prop :=
  ∃ s t, s.Coherent ∧ s.halted = false ∧ determined i s = true ∧ exec i s = .next t ∧ ovfOf t.status = true

theorem canReportRange_of_written {i : Instr} {a b d : Word} (hdet : determined i (writtenState a b d) = true)
    (hr : resultOf i (writtenState a b d) = .range) : CanReportRange i := by
  obtain ⟨t, ht, hend⟩ := exists_exec_ends_resultOf hdet
  rw [hr] at hend
  exact ⟨writtenState a b d, t, writtenState_coherent a b d, writtenState_halted a b d, hdet, ht,
    EndsWithRange.ovf hend⟩

/-- An exact result above the limit is a range violation (R30). -/
theorem exactUpTo_of_lt {limit n : Nat} (h : limit < n) : exactUpTo limit n = .overflow := if_neg (Nat.not_le.2 h)

/-- The view of MAXC is MAX(W) (R11, R14, R40). -/
theorem viewNat_maxC (w : Width) : viewNat w maxC = maxValue w := by cases w <;> decide

/-- Every width has more than one bit, so MAX(W) is below its own square (R11). -/
theorem maxValue_lt_square (w : Width) : maxValue w < maxValue w * maxValue w := by cases w <;> decide

/-- The quotient of MAXC·2^256 + MAXC by 1 has more than 256 bits (R106 c). -/
theorem wdivrem_canReportRange : CanReportRange .wdivrem := by
  refine canReportRange_of_written (a := maxC) (b := maxC) (d := 1) rfl ?_
  have hdiv : divRem ⟨maxC, maxC⟩ 1 = .overflow := divRem_of_le_hi (by decide) (by decide)
  exact congrArg CommandResult.ofTwo hdiv

/-- MAXC with a remainder of one half, which Up and Nearest both round up (R122). -/
theorem rnd_canReportRange {m : RoundingMode} (hm : m ≠ .down) : CanReportRange (.rnd m) := by
  refine canReportRange_of_written (a := maxC) (b := 1) (d := 2) rfl ?_
  have hround : roundPolicy maxC 2 1 m = .overflow := by
    cases m with
    | down => exact absurd rfl hm
    | up | nearest => decide
  exact congrArg CommandResult.ofOne hround

/-- MAXC is above MAX(W) at every width but 256 (R130). -/
theorem cvt_canReportRange {w : Width} (hw : w ≠ .w256) : CanReportRange (.cvt w) := by
  refine canReportRange_of_written (a := maxC) (b := 0) (d := 0) rfl ?_
  have hnarrow : narrow w maxC = .overflow := by
    cases w with
    | w256 => exact absurd rfl hw
    | w8 | w16 | w32 | w64 | w128 => decide
  exact congrArg CommandResult.ofOne hnarrow

/-- The square of MAX(W), divided by 1 (R141). -/
theorem muldiv_canReportRange (w : Width) (m : RoundingMode) : CanReportRange (.muldiv w m) := by
  refine canReportRange_of_written (a := maxC) (b := maxC) (d := 1) rfl ?_
  have hone : viewNat w 1 = 1 := by cases w <;> decide
  have hquot : exactUpTo (maxValue w) (rounded (viewNat w maxC * viewNat w maxC) (viewNat w 1) m) = .overflow := by
    rw [hone, rounded_one, viewNat_maxC]
    exact exactUpTo_of_lt (maxValue_lt_square w)
  exact (resultOf_muldiv m (hone.trans_ne one_ne_zero)).trans (congrArg CommandResult.ofOne hquot)

/-- The square of MAX(W), shifted by 0, which is below both bounds (R150, R152). -/
theorem mulshr_canReportRange (w : Width) (m : RoundingMode) : CanReportRange (.mulshr w m) := by
  refine canReportRange_of_written (a := maxC) (b := maxC) (d := 0) rfl ?_
  have hshift : exactUpTo (maxValue w) (rounded (viewNat w maxC * viewNat w maxC) (2 ^ 0) m) = .overflow := by
    rw [Nat.pow_zero, rounded_one, viewNat_maxC]
    exact exactUpTo_of_lt (maxValue_lt_square w)
  exact (resultOf_mulshr (s := writtenState maxC maxC 0) m (shiftLimit_pos _ w)).trans
    (congrArg CommandResult.ofOne hshift)

/-- MAX(W) shifted left by 1 loses its top bit (R172). -/
theorem cshl_canReportRange (w : Width) : CanReportRange (.cshl w) := by
  refine canReportRange_of_written (a := maxC) (b := 0) (d := 1) rfl ?_
  have hlost : ¬ viewNat w maxC * 2 ^ 1 < 2 ^ bitWidth w := by cases w <;> decide
  have hnone : checkedShl w (view w maxC) 1 = none := by
    rw [checkedShl_spec w _ _ (view_lt w _), view_toNat, if_neg fun h => hlost h.2]
  exact congrArg (CommandResult.ofOne ∘ ofOption) hnone

/-- MAX(W) shifted right by 1 loses its bottom bit (R173). -/
theorem cshr_canReportRange (w : Width) : CanReportRange (.cshr w) := by
  refine canReportRange_of_written (a := maxC) (b := 0) (d := 1) rfl ?_
  have hlost : ¬ viewNat w maxC % 2 ^ 1 = 0 := by cases w <;> decide
  have hnone : checkedShr w (view w maxC) 1 = none := by
    rw [checkedShr_spec w _ _ (view_lt w _), view_toNat, if_neg fun h => hlost h.2]
  exact congrArg (CommandResult.ofOne ∘ ofOption) hnone

-- The run of a halted block (R207, R208)

/-- A step of a halted block that is not RESET takes an allowed transaction from the port and changes at most what the host
has read and the count of free values. -/
theorem step_halted {s : State} (hh : s.halted = true) (hall : ∀ x ∈ s.pending, x.allowed = true ∧ x ≠ .reset) :
    ∃ l v k, l ⊆ s.pending ∧ step s = .next { s with pending := l, readData := v, draws := k } := by
  cases hp : s.pending with
  | nil =>
    rw [step_idle hp]
    exact ⟨[], s.readData, s.draws, List.Subset.refl [], by rw [← hp]⟩
  | cons x rest =>
    obtain ⟨hallowed, hne⟩ := hall x (hp ▸ List.mem_cons_self)
    rcases perform_cases x (takeTransaction rest s) with ⟨-, t, ht, hperf⟩ | ⟨hno, -⟩
    · rcases hperf.reset_or_only_read hh with hreset | ⟨v, k, rfl⟩
      · exact absurd hreset hne
      · exact ⟨rest, v, k, List.subset_cons_self x rest, (step_perform hp).trans ht⟩
    · exact absurd (hno.symm.trans hallowed) Bool.false_ne_true

/-- Any number of such steps changes no more than one does. -/
theorem run_halted (n : Nat) : ∀ s : State, s.halted = true → (∀ x ∈ s.pending, x.allowed = true ∧ x ≠ .reset) →
    ∃ l v k, Sys2Proof.core.run n s = .next { s with pending := l, readData := v, draws := k } := by
  induction n with
  | zero => exact fun s _ _ => ⟨s.pending, s.readData, s.draws, rfl⟩
  | succ n ih =>
    intro s hh hall
    obtain ⟨l, v, k, hsub, hstep⟩ := step_halted hh hall
    obtain ⟨l', v', k', hrun⟩ :=
      ih { s with pending := l, readData := v, draws := k } hh (fun x hx => hall x (hsub hx))
    exact ⟨l', v', k', run_next hstep hrun⟩

-- The statements

/-- Settles O31: FC after the step is the fault of the table of R201, whose rows are read off cause by cause. -/
theorem faultsAreExactlyTheListedOnes : Obligations.FaultsAreExactlyTheListedOnes := by
  intro s t c rest hp hn hop h
  have hissue : issueWord c (takeTransaction rest s) = .next t := (step_perform hp).symm.trans h
  have hfc : fcOf t.status = fcAfter (faultOfWord c (takeTransaction rest s)) := issueWord_fc hn hop hissue
  have hcause (k : Cause) : fcOf t.status = causeCode k ↔ faultOfWord c (takeTransaction rest s) = some k := by
    rw [hfc, fcAfter_eq_causeCode_iff]
  exact ⟨(hcause .illegalCommand).trans faultOfWord_eq_illegalCommand_iff,
    (hcause .divideByZero).trans faultOfWord_eq_divideByZero_iff,
    (hcause .illegalShift).trans faultOfWord_eq_illegalShift_iff,
    hfc ▸ fcAfter_le _, issueWord_keeps_operands (s := takeTransaction rest s) hissue⟩

/-- Settles O33: the results of the five commands are values, and each other command has a state with a violation. -/
theorem commandsThatReportRangeViolations : Obligations.CommandsThatReportRangeViolations := by
  constructor
  · intro i s t hdet h hi
    exact (exec_ends_resultOf hdet h).ovf_eq_false (resultOf_ne_range s hi)
  · rintro i (rfl | ⟨m, hm, rfl⟩ | ⟨w, hw, rfl⟩ | ⟨w, m, rfl⟩ | ⟨w, m, rfl⟩ | ⟨w, rfl⟩ | ⟨w, rfl⟩)
    · exact wdivrem_canReportRange
    · exact rnd_canReportRange hm
    · exact cvt_canReportRange hw
    · exact muldiv_canReportRange w m
    · exact mulshr_canReportRange w m
    · exact cshl_canReportRange w
    · exact cshr_canReportRange w

/-- Settles O44: a run of a halted block changes only the host's side of the port. -/
theorem haltedBlockIsStuckUntilReset : Obligations.HaltedBlockIsStuckUntilReset := by
  intro n s hh hall
  obtain ⟨l, v, k, hrun⟩ := run_halted n s hh hall
  exact ⟨_, hrun, rfl, rfl, rfl, rfl, rfl, rfl⟩

end Sys2Proof.Machine
end

section
/-! PROOFS. The statements on reset and hazards (spec/70_reset_and_hazards.md): the idle step, RESET, and that no transaction
of a conforming host tells apart two states that differ only in unspecified values. -/

namespace Sys2Proof.Machine

-- Two states that differ only in unspecified values (R26, R233)

theorem DataReg.same_refl (r : DataReg) : r.Same r := ⟨rfl, fun _ => rfl⟩

/-- Both outcomes answer, with next states that differ only in unspecified values. -/
def SameNext (o o' : Host.Outcome State Fault Refusal) : Prop :=
  ∃ t t', o = .next t ∧ o' = .next t' ∧ SameDefined t t'

theorem operandsDefined_of_determined {i : Instr} {s : State} (h : determined i s = true) :
    operandsDefined i s = true := by
  simp only [determined, Bool.and_eq_true] at h
  exact h.left

namespace SameDefined

theorem sameNext {t t' : State} (h : SameDefined t t') : SameNext (.next t) (.next t') := ⟨t, t', rfl, rfl, h⟩

theorem halted_eq {s s' : State} (h : SameDefined s s') : s.halted = s'.halted := halted_congr (by rw [h.status])

theorem of_takeTransaction {s s' : State} (h : SameDefined s s') (rest : List Transaction) :
    SameDefined (takeTransaction rest s) (takeTransaction rest s') :=
  { h with pending := rfl }

/-- RESET leaves the same table of R38 in both states (R230). -/
theorem of_resetBlock {s s' : State} (h : SameDefined s s') : SameDefined (resetBlock s) (resetBlock s') :=
  { h with
    a := DataReg.same_refl _, b := DataReg.same_refl _, d := DataReg.same_refl _, r0 := DataReg.same_refl _,
    r1 := DataReg.same_refl _, status := rfl }

-- ISSUE (R57)

/-- A command that reads no poisoned operand sees the same of both states (R24, R27). -/
theorem sameOperandView {i : Instr} {s s' : State} (h : SameDefined s s') (hop : operandsDefined i s = true) :
    SameOperandView i s s' := by
  obtain ⟨-, ha⟩ := h.a
  obtain ⟨-, hb⟩ := h.b
  obtain ⟨-, hd⟩ := h.d
  cases i <;> simp only [operandsDefined, Bool.and_eq_true, Bool.not_eq_true'] at hop
  case wmul =>
    obtain ⟨hpa, hpb⟩ := hop
    exact ⟨ha hpa, hb hpb⟩
  case avg w m =>
    obtain ⟨hpa, hpb⟩ := hop
    exact ⟨by rw [ha hpa], by rw [hb hpb]⟩
  case wdivrem | rnd m =>
    obtain ⟨⟨hpa, hpb⟩, hpd⟩ := hop
    exact ⟨ha hpa, hb hpb, hd hpd⟩
  case muldiv w m =>
    obtain ⟨⟨hpa, hpb⟩, hpd⟩ := hop
    exact ⟨by rw [ha hpa], by rw [hb hpb], by rw [hd hpd]⟩
  case mulshr w m =>
    obtain ⟨⟨hpa, hpb⟩, hpd⟩ := hop
    exact ⟨by rw [ha hpa], by rw [hb hpb], hd hpd, h.mulshrBound⟩
  case cshl w | cshr w =>
    obtain ⟨hpa, hpd⟩ := hop
    exact ⟨by rw [ha hpa], hd hpd⟩
  case cvt w => exact ha hop
  case clz w | log2 w m | log256 w m => exact congrArg (viewNat w) (ha hop)

theorem operandsDefined_eq (i : Instr) {s s' : State} (h : SameDefined s s') :
    operandsDefined i s = operandsDefined i s' := by
  obtain ⟨ha, -⟩ := h.a
  obtain ⟨hb, -⟩ := h.b
  obtain ⟨hd, -⟩ := h.d
  cases i <;> simp only [operandsDefined, ha, hb, hd]

/-- Where the spec determines the outcome in one of the states, it does so in the other. -/
theorem determined_right {i : Instr} {s s' : State} (h : SameDefined s s') (hdet : determined i s = true) :
    determined i s' = true := by
  simp only [determined, Bool.and_eq_true] at hdet ⊢
  obtain ⟨hop, hpre⟩ := hdet
  refine ⟨h.operandsDefined_eq i ▸ hop, ?_⟩
  cases i with
  | rnd m =>
    obtain ⟨-, hb, hd⟩ := h.sameOperandView hop
    simpa only [preconditionMet, hb, hd] using hpre
  | _ => rfl

/-- Ends with the same result leave two such states again: the result says all of R0, R1, OVF, VLD and FC that is defined. -/
theorem of_ends {r : CommandResult} {s s' t t' : State} (h : SameDefined s s') (hr : r.Ends s t)
    (hr' : r.Ends s' t') : SameDefined t t' := by
  obtain ⟨hr0, hr1, hovf, hvld, hfc⟩ := hr.sameOutcome hr' (by rw [h.status])
  obtain ⟨ha, hb, hd, hres, hpend, hread, hbound⟩ := hr.kept
  obtain ⟨ha', hb', hd', hres', hpend', hread', hbound'⟩ := hr'.kept
  exact
    { a := by rw [ha, ha']; exact h.a
      b := by rw [hb, hb']; exact h.b
      d := by rw [hd, hd']; exact h.d
      r0 := hr0
      r1 := hr1
      status := status_ext (by rw [hres, hres', h.status]) hfc hvld hovf
      pending := by rw [hpend, hpend', h.pending]
      readData := by rw [hread, hread', h.readData]
      mulshrBound := by rw [hbound, hbound', h.mulshrBound] }

theorem sameNext_exec {i : Instr} {s s' : State} (h : SameDefined s s') (hdet : determined i s = true) :
    SameNext (exec i s) (exec i s') := by
  obtain ⟨t, ht, hend⟩ := exists_exec_ends_resultOf hdet
  obtain ⟨t', ht', hend'⟩ := exists_exec_ends_resultOf (h.determined_right hdet)
  rw [← resultOf_congr (h.sameOperandView (operandsDefined_of_determined hdet))] at hend'
  exact ⟨t, t', ht, ht', h.of_ends hend hend'⟩

theorem sameNext_issueWord {c : CmdWord} {s s' : State} (h : SameDefined s s')
    (hconf : conformingIssue c s = true) : SameNext (issueWord c s) (issueWord c s') := by
  cases hh : s.halted with
  | true =>
    rw [issueWord_halted hh, issueWord_halted (h.halted_eq ▸ hh)]
    exact h.sameNext
  | false =>
    have hh' : s'.halted = false := h.halted_eq ▸ hh
    cases hc : decode c with
    | error e =>
      rw [issueWord_illegal hh hc, issueWord_illegal hh' hc]
      exact (h.of_ends (r := .fault .illegalCommand) (takeFault_ends _ s) (takeFault_ends _ s')).sameNext
    | ok i =>
      rw [issueWord_legal hh hc, issueWord_legal hh' hc]
      exact h.sameNext_exec (by simpa [conformingIssue, hh, hc] using hconf)

-- WR (R55)

theorem sameNext_hostWrite {n : RegNum} {s s' : State} (h : SameDefined s s') (hn : n.toNat ≤ 2) (v : Word) :
    SameNext (hostWrite n v s) (hostWrite n v s') := by
  cases hh : s.halted with
  | true =>
    rw [hostWrite_operand_halted hn v s hh, hostWrite_operand_halted hn v s' (h.halted_eq ▸ hh)]
    exact h.sameNext
  | false =>
    have hh' : s'.halted = false := h.halted_eq ▸ hh
    obtain rfl | rfl | rfl : n = 0 ∨ n = 1 ∨ n = 2 := by
      revert n
      decide
    · rw [hostWrite_a v s hh, hostWrite_a v s' hh']
      exact sameNext { h with a := DataReg.same_refl _ }
    · rw [hostWrite_b v s hh, hostWrite_b v s' hh']
      exact sameNext { h with b := DataReg.same_refl _ }
    · rw [hostWrite_d v s hh, hostWrite_d v s' hh']
      exact sameNext { h with d := DataReg.same_refl _ }

-- RD (R56)

theorem of_answer {s s' : State} (h : SameDefined s s') (v : Word) : SameDefined (answer v s) (answer v s') :=
  { h with readData := rfl }

/-- RD of a register that is not poisoned answers the same to the host. -/
theorem of_answerReg {r r' : DataReg} {s s' : State} (h : SameDefined s s') (hr : r.Same r')
    (hdef : r.poisoned = false) : SameDefined (answerReg r s) (answerReg r' s') := by
  obtain ⟨hmark, hval⟩ := hr
  rw [answerReg_defined hdef, answerReg_defined (hmark.symm.trans hdef), hval hdef]
  exact h.of_answer _

/-- A conforming RD names STATUS or a register that is not poisoned: of R0 the host knows that by VLD = 1 (R28, R233). -/
theorem sameNext_hostRead {n : RegNum} {s s' : State} (h : SameDefined s s') (hs : s.Coherent)
    (hconf : conformingRead n s = true) : SameNext (hostRead n s) (hostRead n s') := by
  unfold conformingRead at hconf
  unfold hostRead
  generalize regOf n = named at hconf ⊢
  cases named with
  | none => exact absurd hconf Bool.false_ne_true
  | some reg =>
    cases reg with
    | a => exact (h.of_answerReg h.a (by simpa using hconf)).sameNext
    | b => exact (h.of_answerReg h.b (by simpa using hconf)).sameNext
    | d => exact (h.of_answerReg h.d (by simpa using hconf)).sameNext
    | cmd => exact absurd hconf Bool.false_ne_true
    | r0 => exact (h.of_answerReg h.r0 (hs.validDefined hconf)).sameNext
    | r1 =>
      simp only [Bool.and_eq_true, Bool.not_eq_true'] at hconf
      obtain ⟨-, hdef⟩ := hconf
      exact (h.of_answerReg h.r1 hdef).sameNext
    | status =>
      rw [h.status]
      exact (h.of_answer _).sameNext

-- Every transaction (R58)

theorem sameNext_perform {x : Transaction} {s s' : State} (h : SameDefined s s') (hs : s.Coherent)
    (hconf : conforming x s = true) : SameNext (perform x s) (perform x s') := by
  simp only [conforming, Bool.and_eq_true] at hconf
  obtain ⟨hallowed, hconf⟩ := hconf
  cases x with
  | reset => exact h.of_resetBlock.sameNext
  | issue c => exact h.sameNext_issueWord hconf
  | rd n => exact h.sameNext_hostRead hs hconf
  | wr n v =>
    obtain hn | hcmd : n.toNat ≤ 2 ∨ n = 3 ∧ v.toNat < 2 ^ 16 := by simpa [Transaction.allowed] using hallowed
    · exact h.sameNext_hostWrite hn v
    · obtain ⟨rfl, hv⟩ := hcmd
      simp only [perform, hostWrite_cmd, writeCmd_fits hv]
      exact h.sameNext_issueWord hconf

end SameDefined

-- The statements

/-- Settles O42: an idle step changes nothing, and every transaction of a conforming host answers the same in both states. -/
theorem conformingHostSeesNoUnspecifiedValue : Obligations.ConformingHostSeesNoUnspecifiedValue := by
  intro s s' hs h hconf
  cases hp : s.pending with
  | nil =>
    rw [step_idle hp, step_idle (h.pending.symm.trans hp)]
    exact h.sameNext
  | cons x rest =>
    rw [conformingNext, hp] at hconf
    rw [step_perform hp, step_perform (h.pending.symm.trans hp)]
    exact (h.of_takeTransaction rest).sameNext_perform (hs.of_sameResults (takeTransaction_sameResults rest s))
      ((conforming_takeTransaction x rest s).trans hconf)

/-- Settles O10. -/
theorem idleBlockChangesNothing : Obligations.IdleBlockChangesNothing := fun _ hp => step_idle hp

/-- Settles O15: each clause reads one field of the state that `resetBlock` leaves. -/
theorem resetTransactionGivesResetTable : Obligations.ResetTransactionGivesResetTable := by
  intro s rest hp
  exact ⟨resetBlock (takeTransaction rest s), step_perform hp, rfl, rfl, rfl, rfl, rfl, rfl, halted_resetBlock _, rfl, rfl,
    rfl⟩

end Sys2Proof.Machine
end
